-- ==== Sys2Proof/Word.lean ====
section
/-! DEFINITION. The word types of the AS16 core and the wrap-around of its arithmetic (spec/00_scope.md R8, R9). -/

namespace Sys2Proof

/-- A 16-bit register or data word (00_scope.md R6, R8). -/
abbrev Word := BitVec 16

/-- An instruction address: the 16-bit unsigned program counter's type (10_state.md R24). -/
abbrev Addr := BitVec 16

/-- One 18-bit word of the instruction store (30_encoding.md R61). -/
abbrev IWord := BitVec 18

/-- One byte of data memory (10_state.md R30). -/
abbrev Byte := BitVec 8

/-- `wrap16(n)`: the integer of [-32768, 32767] congruent to `n` modulo 65536, by the formula of 00_scope.md R9.
Lean's `%` on `Int` with a positive divisor is the non-negative remainder R9 asks for. -/
def wrap16 (n : Int) : Int := (n + 32768) % 65536 - 32768

/-- The 16-bit two's-complement pattern of a mathematical integer (00_scope.md R8, R10). -/
def toPattern (n : Int) : Word := BitVec.ofInt 16 n

end Sys2Proof
end

