-- ==== Sys2Proof/Config.lean ====
section
/-! DEFINITION. What the spec fixes as a number, and the parameters it leaves open (spec/00_scope.md R7). The one
free value is the wording of the error messages that the spec asks for and does not state. -/

namespace Sys2Proof

/-- `BYTE_ORDER`: the order of a word's two bytes at the byte-lane port; no instruction observes it (20_memory.md R41). -/
inductive ByteOrder where
  /-- The less significant byte has the lower address. -/
  | little
  /-- The more significant byte has the lower address. -/
  | big
deriving DecidableEq, Repr

/-- The open parameters of the step relation (00_scope.md R7, R13). No step changes them. -/
structure Params where
  /-- `START_ADDRESS`, the pc after reset (70_reset_and_hazards.md R200). -/
  startAddress : Addr
  /-- `DMEM_BYTES`, the size of data memory in bytes (10_state.md R30). -/
  dmemBytes : Nat
  /-- `BYTE_ORDER` (20_memory.md R41). -/
  byteOrder : ByteOrder
deriving DecidableEq, Repr

/-- The constraints of 00_scope.md R7: `START_ADDRESS` even; `DMEM_BYTES` even and at least 2. -/
abbrev Params.wf (p : Params) : Prop :=
  p.startAddress.toNat % 2 = 0 ∧ p.dmemBytes % 2 = 0 ∧ 2 ≤ p.dmemBytes

/-- The wording of the message of a failed Load, where the spec says that there is a descriptive one and not what it says
(40_assembler_resolver.md R90, R110): a free value. It is given the error's row in the table of R110 and the two texts, data first
(log entry 20). -/
opaque Config.errorWording (row : Nat) (dataText programText : List Char) : List Char

/-- `IMEM_MAX`, the largest number of installed instructions (00_scope.md R7, 40_assembler_resolver.md R109). -/
def imemMax : Nat := 32768

end Sys2Proof
end

