-- ==== Sys2Proof/Machine/Params.lean ====
section
/-! DEFINITION. The values of the open parameters in the reset state (spec/00_scope.md R7). -/

namespace Sys2Proof.Machine

/-- `START_ADDRESS`: the spec's default, 0 (70_reset_and_hazards.md R200; log entry 4). -/
def defaultStartAddress : Addr := 0

/-- `DMEM_BYTES`: DESIGN CHOICE, the value the spec's test vectors assume (95_test_vectors.md; log entry 3). -/
def defaultDmemBytes : Nat := 64

/-- `BYTE_ORDER`: DESIGN CHOICE, observable by no instruction (20_memory.md R41; log entry 5). -/
def defaultByteOrder : ByteOrder := .little

end Sys2Proof.Machine
end

