-- ==== Sys2Proof/Syntax.lean ====
section
/-! DEFINITION. The instructions of the AS16 core as data (spec/30_encoding.md R60, R62, R63): registers, the 28 real instructions,
their mnemonics, and the operands an instruction binds. -/

namespace Sys2Proof

/-- A register operand: an index 0 to 7, every one legal in every register field (30_encoding.md R64). -/
inductive Reg where
  | r0 | r1 | r2 | r3 | r4 | r5 | r6 | r7
deriving DecidableEq, Repr

/-- The index of a register (30_encoding.md R64). -/
def Reg.index : Reg → Nat
  | .r0 => 0
  | .r1 => 1
  | .r2 => 2
  | .r3 => 3
  | .r4 => 4
  | .r5 => 5
  | .r6 => 6
  | .r7 => 7

/-- A real instruction with its bound operands, one constructor for each row of the opcode map (30_encoding.md R60, R62, R63).
An immediate is the integer of the abstract form; its range is a matter of `Instr.wellFormed` (R74). -/
inductive Instr where
  /-- `add rA, rB, rC` (R120). -/
  | add (a b c : Reg)
  /-- `addi rA, rB, imm` (R121). -/
  | addi (a b : Reg) (imm : Int)
  /-- `sub rA, rB, rC` (R122). -/
  | sub (a b c : Reg)
  /-- `subi rA, rB, imm` (R123). -/
  | subi (a b : Reg) (imm : Int)
  /-- `and rA, rB, rC` (R124). -/
  | and (a b c : Reg)
  /-- `andi rA, rB, imm` (R125). -/
  | andi (a b : Reg) (imm : Int)
  /-- `or rA, rB, rC` (R126). -/
  | or (a b c : Reg)
  /-- `ori rA, rB, imm` (R127). -/
  | ori (a b : Reg) (imm : Int)
  /-- `nand rA, rB, rC` (R128). -/
  | nand (a b c : Reg)
  /-- `nor rA, rB, rC` (R129). -/
  | nor (a b c : Reg)
  /-- `mul rA, rB, rC` (R141). -/
  | mul (a b c : Reg)
  /-- `muli rA, rB, imm` (R142). -/
  | muli (a b : Reg) (imm : Int)
  /-- `div rA, rB, rC` (R143). -/
  | div (a b c : Reg)
  /-- `divi rA, rB, imm` (R144). -/
  | divi (a b : Reg) (imm : Int)
  /-- `mod rA, rB, rC` (R145). -/
  | mod (a b c : Reg)
  /-- `modi rA, rB, imm` (R146). -/
  | modi (a b : Reg) (imm : Int)
  /-- `lw rA, rB, imm` (R150). -/
  | lw (a b : Reg) (imm : Int)
  /-- `sw rA, rB, imm` (R151). -/
  | sw (a b : Reg) (imm : Int)
  /-- `beq rA, rB, imm` (R161). -/
  | beq (a b : Reg) (imm : Int)
  /-- `bne rA, rB, imm` (R162). -/
  | bne (a b : Reg) (imm : Int)
  /-- `bgt rA, rB, imm` (R163). -/
  | bgt (a b : Reg) (imm : Int)
  /-- `blt rA, rB, imm` (R164). -/
  | blt (a b : Reg) (imm : Int)
  /-- `bge rA, rB, imm` (R165). -/
  | bge (a b : Reg) (imm : Int)
  /-- `ble rA, rB, imm` (R166). -/
  | ble (a b : Reg) (imm : Int)
  /-- `jmp rA, imm` (R170). -/
  | jmp (a : Reg) (imm : Int)
  /-- `ret rA` (R171). -/
  | ret (a : Reg)
  /-- `jalr rA, rB`: `a` the link, `b` the target (R172). -/
  | jalr (a b : Reg)
  /-- `lui rA, imm` (R130). -/
  | lui (a : Reg) (imm : Int)
deriving DecidableEq, Repr

/-- The 28 real mnemonics, in the order of their opcode numbers (30_encoding.md R62). -/
inductive Mnemonic where
  | add | addi | sub | subi | and | andi | or
  | ori | nand | nor | mul | muli | div | divi
  | mod | modi | lw | sw | beq | bne | bgt
  | blt | bge | ble | jmp | ret | jalr | lui
deriving DecidableEq, Repr

/-- Source text and tokens of the assembler: characters in order. -/
abbrev Text := List Char

/-- An operand of an abstract instruction (00_scope.md R17). A label stands only between parse and label fixup
(30_encoding.md R67). -/
inductive Operand where
  /-- A register. -/
  | reg (r : Reg)
  /-- A signed integer. -/
  | imm (n : Int)
  /-- A label name still to be resolved: the source's PendingLabel. -/
  | label (name : Text)
deriving DecidableEq, Repr

/-- The mnemonic of an instruction. -/
def Instr.mnemonic : Instr → Mnemonic
  | .add _ _ _ => .add
  | .addi _ _ _ => .addi
  | .sub _ _ _ => .sub
  | .subi _ _ _ => .subi
  | .and _ _ _ => .and
  | .andi _ _ _ => .andi
  | .or _ _ _ => .or
  | .ori _ _ _ => .ori
  | .nand _ _ _ => .nand
  | .nor _ _ _ => .nor
  | .mul _ _ _ => .mul
  | .muli _ _ _ => .muli
  | .div _ _ _ => .div
  | .divi _ _ _ => .divi
  | .mod _ _ _ => .mod
  | .modi _ _ _ => .modi
  | .lw _ _ _ => .lw
  | .sw _ _ _ => .sw
  | .beq _ _ _ => .beq
  | .bne _ _ _ => .bne
  | .bgt _ _ _ => .bgt
  | .blt _ _ _ => .blt
  | .bge _ _ _ => .bge
  | .ble _ _ _ => .ble
  | .jmp _ _ => .jmp
  | .ret _ => .ret
  | .jalr _ _ => .jalr
  | .lui _ _ => .lui

/-- The operand list of an instruction, in the order of the signature table (30_encoding.md R63). -/
def Instr.operands : Instr → List Operand
  | .add a b c => [.reg a, .reg b, .reg c]
  | .addi a b imm => [.reg a, .reg b, .imm imm]
  | .sub a b c => [.reg a, .reg b, .reg c]
  | .subi a b imm => [.reg a, .reg b, .imm imm]
  | .and a b c => [.reg a, .reg b, .reg c]
  | .andi a b imm => [.reg a, .reg b, .imm imm]
  | .or a b c => [.reg a, .reg b, .reg c]
  | .ori a b imm => [.reg a, .reg b, .imm imm]
  | .nand a b c => [.reg a, .reg b, .reg c]
  | .nor a b c => [.reg a, .reg b, .reg c]
  | .mul a b c => [.reg a, .reg b, .reg c]
  | .muli a b imm => [.reg a, .reg b, .imm imm]
  | .div a b c => [.reg a, .reg b, .reg c]
  | .divi a b imm => [.reg a, .reg b, .imm imm]
  | .mod a b c => [.reg a, .reg b, .reg c]
  | .modi a b imm => [.reg a, .reg b, .imm imm]
  | .lw a b imm => [.reg a, .reg b, .imm imm]
  | .sw a b imm => [.reg a, .reg b, .imm imm]
  | .beq a b imm => [.reg a, .reg b, .imm imm]
  | .bne a b imm => [.reg a, .reg b, .imm imm]
  | .bgt a b imm => [.reg a, .reg b, .imm imm]
  | .blt a b imm => [.reg a, .reg b, .imm imm]
  | .bge a b imm => [.reg a, .reg b, .imm imm]
  | .ble a b imm => [.reg a, .reg b, .imm imm]
  | .jmp a imm => [.reg a, .imm imm]
  | .ret a => [.reg a]
  | .jalr a b => [.reg a, .reg b]
  | .lui a imm => [.reg a, .imm imm]

end Sys2Proof
end

