-- ==== Sys2Proof/Machine/State.lean ====
section
/-! DEFINITION. The state of the AS16 core (spec/10_state.md R20, R33), the faults its latch records, the reasons a step does not
happen, and the state after reset. -/

namespace Sys2Proof.Machine

/-- The writable general registers `x[1]` to `x[7]`. Register 0 is no state (10_state.md R20, R21, R35). -/
structure RegFile where
  r1 : Word
  r2 : Word
  r3 : Word
  r4 : Word
  r5 : Word
  r6 : Word
  r7 : Word
deriving DecidableEq, Repr

/-- The four run-time faults with their recorded values (60_exceptions.md R180). The step that raises one answers the next state
with the latch `State.fault` set; a step in a state whose latch is set answers that fault as its outcome (log entry 1). All four are
safe: a run that met one never counts as finished (60_exceptions.md R184). -/
inductive Fault where
  /-- The divisor is 0; `a` is the address of the instruction. Raised by div, divi, mod, modi (60_exceptions.md R181). Safe: the
  spec raises it. -/
  | divideByZero (a : Addr)
  /-- The effective address is no valid word address. Raised by lw and sw (60_exceptions.md R182). Safe: the spec raises it, and
  where the original would wrap an address into memory the model stops (92_eei_decisions.md D10). -/
  | invalidAddress (ea : Int)
  /-- The pc names no installed instruction. Raised by the fetch (60_exceptions.md R185). Safe: it refutes that the program
  finishes (92_eei_decisions.md D5). -/
  | invalidFetch (a : Addr)
  /-- The fetched word encodes no instruction. Raised by decode (60_exceptions.md R183). Safe: no program that Load installs
  raises it (92_eei_decisions.md D20). -/
  | illegalInstruction (w : IWord)
deriving DecidableEq, Repr

/-- Why there is no step at all (10_state.md R28, 70_reset_and_hazards.md R203; log entry 1). -/
inductive Refusal where
  /-- Raised by `exec`'s arm of an instruction that has no meaning yet; no arm is one. Safe. -/
  | notModelled (mnemonic : String)
  /-- Raised by `step` when no program is installed: no step is enabled before the first Load (70_reset_and_hazards.md R203).
  Safe: the spec has no step there. -/
  | noProgram
  /-- Raised by `step` when the `halted` latch is set: the end of a run (00_scope.md R14, 44_control.md R176). Safe: the spec has
  no step there. -/
  | halted
deriving DecidableEq, Repr

/-- Data memory: (address, byte) pairs, in the canonical form `Memory.wf`; an address that is not listed reads 0
(00_scope.md R7 row `DMEM_INIT`, 20_memory.md R46; log entry 6). -/
abbrev Memory := List Host.Cell

/-- The canonical form of a memory: addresses strictly rising, no byte equal to what an unlisted address reads as. -/
abbrev Memory.wf (m : Memory) : Prop :=
  (m.map Prod.fst).Pairwise (· < ·) ∧ ∀ c ∈ m, c.2 ≠ 0#8

/-- The state of the core: the tuple of 10_state.md R20, with the installed program and the open parameters of the step relation
beside it (00_scope.md R13; log entry 9). -/
structure State where
  /-- General registers 1 to 7 (R21). -/
  regs : RegFile
  /-- The program counter (R24). -/
  pc : Addr
  /-- The data memory (R30). -/
  dmem : Memory
  /-- The `halted` latch (R28). -/
  halted : Bool
  /-- The `fault` latch; `none` when no fault has occurred since Reset or Load (R28). -/
  fault : Option Fault
  /-- The instruction store: instruction `k` stands at address `2 × k` (R29). -/
  imem : List IWord
  /-- The open parameters (00_scope.md R7). -/
  params : Params
deriving DecidableEq, Repr

/-- Every register 0 (70_reset_and_hazards.md R200). -/
def RegFile.zero : RegFile := ⟨0, 0, 0, 0, 0, 0, 0⟩

/-- The core after Reset, before the first Load (10_state.md R33, 70_reset_and_hazards.md R200, R203): registers 0,
`pc = START_ADDRESS`, latches clear, no program installed, data memory all 0. -/
def State.reset : State where
  regs := RegFile.zero
  pc := defaultStartAddress
  dmem := []
  halted := false
  fault := none
  imem := []
  params := ⟨defaultStartAddress, defaultDmemBytes, defaultByteOrder⟩

end Sys2Proof.Machine
end

