-- ==== Sys2Proof/Machine/Ops.lean ====
section
/-! DEFINITION. The named operations on registers, pc, data memory and latches that every meaning goes through
(spec/00_scope.md R10, 10_state.md R21 to R25, 20_memory.md R43 to R47, 60_exceptions.md R184, 70_reset_and_hazards.md R200). -/

namespace Sys2Proof.Machine

/-- The outcome of a meaning or a step. -/
abbrev Result := Host.Outcome State Fault Refusal

/-- The pattern a register holds; register 0 is the constant 0 (10_state.md R21). -/
def RegFile.read (f : RegFile) : Reg → Word
  | .r0 => 0
  | .r1 => f.r1
  | .r2 => f.r2
  | .r3 => f.r3
  | .r4 => f.r4
  | .r5 => f.r5
  | .r6 => f.r6
  | .r7 => f.r7

/-- Store a pattern in a register; a write to register 0 is dropped (10_state.md R22). -/
def RegFile.write (f : RegFile) (r : Reg) (v : Word) : RegFile :=
  match r with
  | .r0 => f
  | .r1 => { f with r1 := v }
  | .r2 => { f with r2 := v }
  | .r3 => { f with r3 := v }
  | .r4 => { f with r4 := v }
  | .r5 => { f with r5 := v }
  | .r6 => { f with r6 := v }
  | .r7 => { f with r7 := v }

/-- The 16-bit pattern of register `r`. -/
def State.readReg (s : State) (r : Reg) : Word := s.regs.read r

/-- `x[r]`: the value of register `r` as a signed integer (00_scope.md R10). -/
def State.x (s : State) (r : Reg) : Int := (s.readReg r).toInt

/-- `x[r] <- n`: the register becomes `wrap16(n)`, and a write to register 0 is dropped (10_state.md R22). -/
def State.writeReg (s : State) (r : Reg) (n : Int) : State :=
  { s with regs := s.regs.write r (toPattern n) }

/-- `pc <- n`: the pc becomes `n mod 65536` (10_state.md R25); the source's `setPc`. -/
def State.setPc (s : State) (n : Int) : State := { s with pc := BitVec.ofInt 16 n }

/-- `incrementPc(d)`: `pc <- pc + d` (10_state.md R25). -/
def State.incrementPc (s : State) (d : Int) : State := s.setPc ((s.pc.toNat : Int) + d)

/-- The address `A` of the instruction being executed, whose handler sees `pc = A + 2` (30_encoding.md R80). -/
def State.instrAddr (s : State) : Addr := s.pc - 2

/-- Set the `halted` latch (44_control.md R176). -/
def State.setHalted (s : State) : State := { s with halted := true }

/-- `raise F(info)`: a fault's whole effect is its record in the `fault` latch; no register, memory word or pc changes, and nothing
is saved elsewhere (60_exceptions.md R184). -/
def State.raise (s : State) (f : Fault) : State := { s with fault := some f }

/-- A meaning that takes a fault: the next state has the latch set (60_exceptions.md R184; log entry 1). -/
def takeFault (f : Fault) (s : State) : Result := .next (s.raise f)

/-- The register file's `clear(startAddress)`, with the latches: the one way out of a fault or a halt besides Load
(70_reset_and_hazards.md R200, 60_exceptions.md R188). Instruction store and data memory stay (R201). -/
def State.clear (s : State) (start : Addr) : State :=
  { s with regs := RegFile.zero, pc := start, halted := false, fault := none }

/-- One byte of data memory; an unlisted address reads 0 (00_scope.md R7 row `DMEM_INIT`; log entry 6). -/
def Memory.readByte : Memory → Nat → Byte
  | [], _ => 0
  | c :: m, a => if c.1 = a then c.2 else Memory.readByte m a

/-- Store one byte and keep the canonical form: a zero byte is not listed. -/
def Memory.writeByte : Memory → Nat → Byte → Memory
  | [], a, v => if v = 0 then [] else [(a, v)]
  | c :: m, a, v =>
    if a < c.1 then (if v = 0 then c :: m else (a, v) :: c :: m)
    else if a = c.1 then (if v = 0 then m else (a, v) :: m)
    else c :: Memory.writeByte m a v

/-- `isWordAddress`: even, and in [0, `DMEM_BYTES`) (20_memory.md R43). -/
def isWordAddress (p : Params) (ea : Int) : Bool :=
  decide (0 ≤ ea ∧ ea < (p.dmemBytes : Int) ∧ ea % 2 = 0)

/-- The word whose bytes, at the lower and the higher address, are `b0` and `b1` (20_memory.md R41). -/
def wordOfBytes (o : ByteOrder) (b0 b1 : Byte) : Word :=
  match o with
  | .little => b1 ++ b0
  | .big => b0 ++ b1

/-- The bytes of a word, at the lower and the higher address (20_memory.md R41). -/
def bytesOfWord (o : ByteOrder) (v : Word) : Byte × Byte :=
  match o with
  | .little => (v.extractLsb' 0 8, v.extractLsb' 8 8)
  | .big => (v.extractLsb' 8 8, v.extractLsb' 0 8)

/-- The cache collaborator's `getData(addr, 2)`: the two bytes from `addr` on (20_memory.md R55). -/
def Memory.getData (m : Memory) (addr : Nat) : Byte × Byte := (m.readByte addr, m.readByte (addr + 1))

/-- The cache collaborator's `setData(addr, bytes)` of two bytes (20_memory.md R55). -/
def Memory.setData (m : Memory) (addr : Nat) (b : Byte × Byte) : Memory :=
  (m.writeByte addr b.1).writeByte (addr + 1) b.2

/-- The word at a byte address, through the byte-lane port. -/
def Memory.readWord (o : ByteOrder) (m : Memory) (addr : Nat) : Word :=
  wordOfBytes o (m.getData addr).1 (m.getData addr).2

/-- Store the word at a byte address, through the byte-lane port. -/
def Memory.writeWord (o : ByteOrder) (m : Memory) (addr : Nat) (v : Word) : Memory :=
  m.setData addr (bytesOfWord o v)

/-- `MemRead(addr, 2)`, for a valid word address (20_memory.md R44). -/
def State.memRead (s : State) (addr : Int) : Int :=
  (s.dmem.readWord s.params.byteOrder addr.toNat).toInt

/-- `MemWrite(addr, 2, v)`, for a valid word address and a `v` in [-32768, 32767] (20_memory.md R45). -/
def State.memWrite (s : State) (addr : Int) (v : Int) : State :=
  { s with dmem := s.dmem.writeWord s.params.byteOrder addr.toNat (toPattern v) }

/-- The numeric code of a latch value (60_exceptions.md R180). -/
def faultCode : Option Fault → Nat
  | none => 0
  | some (.divideByZero _) => 1
  | some (.invalidAddress _) => 2
  | some (.invalidFetch _) => 3
  | some (.illegalInstruction _) => 4

end Sys2Proof.Machine
end

