-- ==== Sys2Proof/Machine/Operands.lean ====
section
/-! DEFINITION. The operand forms and the integer functions the meanings apply to them (spec/00_scope.md R10, 42_muldiv.md R140,
43_memory_ops.md R152, 44_control.md R170). -/

namespace Sys2Proof.Machine

/-- `and16(m, n)` on 16-bit patterns (00_scope.md R10). -/
def and16 (m n : Int) : Int := (toPattern m &&& toPattern n).toInt

/-- `or16(m, n)` on 16-bit patterns (00_scope.md R10). -/
def or16 (m n : Int) : Int := (toPattern m ||| toPattern n).toInt

/-- `not16(m)` on the 16-bit pattern (00_scope.md R10). -/
def not16 (m : Int) : Int := (~~~ toPattern m).toInt

/-- `tdiv(m, n)`: the quotient rounded toward zero, for `n ≠ 0` (42_muldiv.md R140; log entry 14). -/
def tdiv (m n : Int) : Int := Int.tdiv m n

/-- `tmod(m, n) = m - n × tdiv(m, n)`, for `n ≠ 0` (42_muldiv.md R140; log entry 14). -/
def tmod (m n : Int) : Int := m - n * tdiv m n

/-- `lui`'s value: the immediate shifted left by 6 (41_alu.md R130, R133). -/
def upperImmediate (imm : Int) : Int := imm * 64

/-- The one addressing mode: `EA = x[b] + imm`, an exact integer with no wrap (43_memory_ops.md R152). -/
def effectiveAddress (s : State) (b : Reg) (imm : Int) : Int := s.x b + imm

/-- `jmp`'s displacement: register value plus immediate (44_control.md R170). -/
def jumpDisplacement (s : State) (a : Reg) (imm : Int) : Int := s.x a + imm

end Sys2Proof.Machine
end

