-- ==== Sys2Proof/Machine/Alu.lean ====
section
/-! DEFINITION. The ALU instructions (spec/41_alu.md R120 to R133): a result from operands read first, written through `x[a] <- n`,
and nothing else. The handler sees `pc = A + 2` and leaves it. -/

namespace Sys2Proof.Machine

/-- The common effect of the ALU and MULTIPLY classes: `x[a] <- n`, no fault, no memory access, no pc change
(41_alu.md R132, 42_muldiv.md R148). -/
def writeResult (a : Reg) (n : Int) (s : State) : Result := .next (s.writeReg a n)

/-- `add rA, rB, rC`: `x[a] <- x[b] + x[c]` (R120). -/
def execAdd (a b c : Reg) (s : State) : Result := writeResult a (s.x b + s.x c) s

/-- `addi rA, rB, imm`: `x[a] <- x[b] + imm` (R121). -/
def execAddi (a b : Reg) (imm : Int) (s : State) : Result := writeResult a (s.x b + imm) s

/-- `sub rA, rB, rC`: `x[a] <- x[b] - x[c]` (R122). -/
def execSub (a b c : Reg) (s : State) : Result := writeResult a (s.x b - s.x c) s

/-- `subi rA, rB, imm`: `x[a] <- x[b] - imm` (R123). -/
def execSubi (a b : Reg) (imm : Int) (s : State) : Result := writeResult a (s.x b - imm) s

/-- `and rA, rB, rC`: `x[a] <- and16(x[b], x[c])` (R124). -/
def execAnd (a b c : Reg) (s : State) : Result := writeResult a (and16 (s.x b) (s.x c)) s

/-- `andi rA, rB, imm`: `x[a] <- and16(x[b], imm)` (R125). -/
def execAndi (a b : Reg) (imm : Int) (s : State) : Result := writeResult a (and16 (s.x b) imm) s

/-- `or rA, rB, rC`: `x[a] <- or16(x[b], x[c])` (R126). -/
def execOr (a b c : Reg) (s : State) : Result := writeResult a (or16 (s.x b) (s.x c)) s

/-- `ori rA, rB, imm`: `x[a] <- or16(x[b], imm)` (R127). -/
def execOri (a b : Reg) (imm : Int) (s : State) : Result := writeResult a (or16 (s.x b) imm) s

/-- `nand rA, rB, rC`: `x[a] <- not16(and16(x[b], x[c]))` (R128). -/
def execNand (a b c : Reg) (s : State) : Result := writeResult a (not16 (and16 (s.x b) (s.x c))) s

/-- `nor rA, rB, rC`: `x[a] <- not16(or16(x[b], x[c]))` (R129). -/
def execNor (a b c : Reg) (s : State) : Result := writeResult a (not16 (or16 (s.x b) (s.x c))) s

/-- `lui rA, imm`: `x[a] <- imm × 64` (R130). -/
def execLui (a : Reg) (imm : Int) (s : State) : Result := writeResult a (upperImmediate imm) s

end Sys2Proof.Machine
end

