-- ==== Sys2Proof/Machine/Flags.lean ====
section
/-! DEFINITION. The core has no status flags (spec/10_state.md R27): what stands in their place are the six signed comparisons that
a conditional branch computes for itself (spec/44_control.md R167). -/

namespace Sys2Proof.Machine

/-- `x[a] = x[b]` (44_control.md R161). -/
def condEq (s : State) (a b : Reg) : Bool := decide (s.x a = s.x b)

/-- `x[a] ≠ x[b]` (44_control.md R162). -/
def condNe (s : State) (a b : Reg) : Bool := decide (s.x a ≠ s.x b)

/-- `x[a] > x[b]`, signed (44_control.md R163). -/
def condGt (s : State) (a b : Reg) : Bool := decide (s.x a > s.x b)

/-- `x[a] < x[b]`, signed (44_control.md R164). -/
def condLt (s : State) (a b : Reg) : Bool := decide (s.x a < s.x b)

/-- `x[a] ≥ x[b]`, signed (44_control.md R165). -/
def condGe (s : State) (a b : Reg) : Bool := decide (s.x a ≥ s.x b)

/-- `x[a] ≤ x[b]`, signed (44_control.md R166). -/
def condLe (s : State) (a b : Reg) : Bool := decide (s.x a ≤ s.x b)

end Sys2Proof.Machine
end

