-- ==== Sys2Proof/Machine/Control.lean ====
section
/-! DEFINITION. Control transfer and the halt pattern (spec/44_control.md R160 to R177). The handler sees `pc = A + 2` (R160); a
target is not checked when it is written (R175). -/

namespace Sys2Proof.Machine

/-- The common effect of the BRANCH class: on true `pc <- pc + imm`, on false the pc stays (44_control.md R167). -/
def branchIf (taken : Bool) (imm : Int) (s : State) : Result :=
  .next (if taken then s.incrementPc imm else s)

/-- `beq rA, rB, imm`: `if x[a] = x[b] then pc <- pc + imm` (R161). -/
def execBeq (a b : Reg) (imm : Int) (s : State) : Result := branchIf (condEq s a b) imm s

/-- `bne rA, rB, imm`: `if x[a] ≠ x[b] then pc <- pc + imm` (R162). -/
def execBne (a b : Reg) (imm : Int) (s : State) : Result := branchIf (condNe s a b) imm s

/-- `bgt rA, rB, imm`: `if x[a] > x[b] then pc <- pc + imm` (R163). -/
def execBgt (a b : Reg) (imm : Int) (s : State) : Result := branchIf (condGt s a b) imm s

/-- `blt rA, rB, imm`: `if x[a] < x[b] then pc <- pc + imm` (R164). -/
def execBlt (a b : Reg) (imm : Int) (s : State) : Result := branchIf (condLt s a b) imm s

/-- `bge rA, rB, imm`: `if x[a] ≥ x[b] then pc <- pc + imm` (R165). -/
def execBge (a b : Reg) (imm : Int) (s : State) : Result := branchIf (condGe s a b) imm s

/-- `ble rA, rB, imm`: `if x[a] ≤ x[b] then pc <- pc + imm` (R166). -/
def execBle (a b : Reg) (imm : Int) (s : State) : Result := branchIf (condLe s a b) imm s

/-- `jmp rA, imm`: `pc <- pc + x[a] + imm` (R170). -/
def execJmp (a : Reg) (imm : Int) (s : State) : Result := .next (s.incrementPc (jumpDisplacement s a imm))

/-- `ret rA`: `pc <- x[a]` (R171). -/
def execRet (a : Reg) (s : State) : Result := .next (s.setPc (s.x a))

/-- `jalr`'s two assignments in the source's order: the link `x[a] <- pc`, then the target `pc <- x[b]`, read after the link is
written (R172; log entry 15). -/
def linkAndJump (a b : Reg) (s : State) : State :=
  let linked := s.writeReg a (s.pc.toNat : Int)
  linked.setPc (linked.x b)

/-- `jalr rA, rB` (R172). With `a = b = 0` it is the halt pattern, which then sets the `halted` latch (R176). -/
def execJalr (a b : Reg) (s : State) : Result :=
  .next (if a = .r0 ∧ b = .r0 then (linkAndJump a b s).setHalted else linkAndJump a b s)

end Sys2Proof.Machine
end

