-- ==== Sys2Proof/Machine/LoadStore.lean ====
section
/-! DEFINITION. The memory instructions (spec/43_memory_ops.md R150 to R153). -/

namespace Sys2Proof.Machine

/-- The address check of lw and sw, before any access: an address that is no valid word address raises `InvalidAddress`, any other
is given to `k` (43_memory_ops.md R153, 20_memory.md R42). -/
def withWordAddress (ea : Int) (s : State) (k : Int → State) : Result :=
  if isWordAddress s.params ea then .next (k ea) else takeFault (.invalidAddress ea) s

/-- `lw rA, rB, imm`: `x[a] <- MemRead(x[b] + imm, 2)` (R150). -/
def execLw (a b : Reg) (imm : Int) (s : State) : Result :=
  withWordAddress (effectiveAddress s b imm) s fun ea => s.writeReg a (s.memRead ea)

/-- `sw rA, rB, imm`: `MemWrite(x[b] + imm, 2, x[a])` (R151). -/
def execSw (a b : Reg) (imm : Int) (s : State) : Result :=
  withWordAddress (effectiveAddress s b imm) s fun ea => s.memWrite ea (s.x a)

end Sys2Proof.Machine
end

