-- ==== Sys2Proof/Machine/MulDiv.lean ====
section
/-! DEFINITION. Multiply, divide and modulo (spec/42_muldiv.md R140 to R148). -/

namespace Sys2Proof.Machine

/-- The common effect of the DIVIDE class: the divisor test comes first, whatever the destination; then `x[a] <- f(m, n)`
(42_muldiv.md R148, 60_exceptions.md R181). -/
def divideResult (f : Int → Int → Int) (a : Reg) (m n : Int) (s : State) : Result :=
  if n = 0 then takeFault (.divideByZero s.instrAddr) s else .next (s.writeReg a (f m n))

/-- `mul rA, rB, rC`: `x[a] <- x[b] × x[c]` (R141). -/
def execMul (a b c : Reg) (s : State) : Result := writeResult a (s.x b * s.x c) s

/-- `muli rA, rB, imm`: `x[a] <- x[b] × imm` (R142). -/
def execMuli (a b : Reg) (imm : Int) (s : State) : Result := writeResult a (s.x b * imm) s

/-- `div rA, rB, rC`: divide by zero when `x[c]` is 0, else `x[a] <- tdiv(x[b], x[c])` (R143). -/
def execDiv (a b c : Reg) (s : State) : Result := divideResult tdiv a (s.x b) (s.x c) s

/-- `divi rA, rB, imm`: divide by zero when `imm` is 0, else `x[a] <- tdiv(x[b], imm)` (R144). -/
def execDivi (a b : Reg) (imm : Int) (s : State) : Result := divideResult tdiv a (s.x b) imm s

/-- `mod rA, rB, rC`: divide by zero when `x[c]` is 0, else `x[a] <- tmod(x[b], x[c])` (R145). -/
def execMod (a b c : Reg) (s : State) : Result := divideResult tmod a (s.x b) (s.x c) s

/-- `modi rA, rB, imm`: divide by zero when `imm` is 0, else `x[a] <- tmod(x[b], imm)` (R146). -/
def execModi (a b : Reg) (imm : Int) (s : State) : Result := divideResult tmod a (s.x b) imm s

end Sys2Proof.Machine
end

