-- ==== Sys2Proof/Machine/Dispatch.lean ====
section
/-! DEFINITION. The dispatcher: one handler for each real mnemonic, its arguments bound by position (spec/30_encoding.md R82). The
state an arm receives has `pc = A + 2` (R80). -/

namespace Sys2Proof.Machine

def exec (i : Instr) (s : State) : Host.Outcome State Fault Refusal :=
  match i with
  | .add a b c => Sys2Proof.Machine.execAdd a b c s
  | .addi a b imm => Sys2Proof.Machine.execAddi a b imm s
  | .sub a b c => Sys2Proof.Machine.execSub a b c s
  | .subi a b imm => Sys2Proof.Machine.execSubi a b imm s
  | .and a b c => Sys2Proof.Machine.execAnd a b c s
  | .andi a b imm => Sys2Proof.Machine.execAndi a b imm s
  | .or a b c => Sys2Proof.Machine.execOr a b c s
  | .ori a b imm => Sys2Proof.Machine.execOri a b imm s
  | .nand a b c => Sys2Proof.Machine.execNand a b c s
  | .nor a b c => Sys2Proof.Machine.execNor a b c s
  | .mul a b c => Sys2Proof.Machine.execMul a b c s
  | .muli a b imm => Sys2Proof.Machine.execMuli a b imm s
  | .div a b c => Sys2Proof.Machine.execDiv a b c s
  | .divi a b imm => Sys2Proof.Machine.execDivi a b imm s
  | .mod a b c => Sys2Proof.Machine.execMod a b c s
  | .modi a b imm => Sys2Proof.Machine.execModi a b imm s
  | .lw a b imm => Sys2Proof.Machine.execLw a b imm s
  | .sw a b imm => Sys2Proof.Machine.execSw a b imm s
  | .beq a b imm => Sys2Proof.Machine.execBeq a b imm s
  | .bne a b imm => Sys2Proof.Machine.execBne a b imm s
  | .bgt a b imm => Sys2Proof.Machine.execBgt a b imm s
  | .blt a b imm => Sys2Proof.Machine.execBlt a b imm s
  | .bge a b imm => Sys2Proof.Machine.execBge a b imm s
  | .ble a b imm => Sys2Proof.Machine.execBle a b imm s
  | .jmp a imm => Sys2Proof.Machine.execJmp a imm s
  | .ret a => Sys2Proof.Machine.execRet a s
  | .jalr a b => Sys2Proof.Machine.execJalr a b s
  | .lui a imm => Sys2Proof.Machine.execLui a imm s

end Sys2Proof.Machine
end

