-- ==== Sys2Proof/Decode.lean ====
section
/-! DEFINITION. The 18-bit instruction word (spec/30_encoding.md R61 to R73): its fields, `Decode`, total on every word, and
`Encode`. -/

namespace Sys2Proof

/-- Why a word encodes no instruction. -/
inductive DecodeError where
  /-- Opcodes 28 to 31 select no instruction (30_encoding.md R69). -/
  | reservedOpcode
  /-- A bit that the word's format requires to be 0 is 1 (30_encoding.md R70). -/
  | mustBeZero
deriving DecidableEq, Repr

/-- The 3-bit index of a register (30_encoding.md R64). -/
def Reg.bits : Reg → BitVec 3
  | .r0 => 0
  | .r1 => 1
  | .r2 => 2
  | .r3 => 3
  | .r4 => 4
  | .r5 => 5
  | .r6 => 6
  | .r7 => 7

/-- The register a 3-bit index names (30_encoding.md R64). -/
def Reg.ofBits (v : BitVec 3) : Reg :=
  match v.toNat with
  | 0 => .r0
  | 1 => .r1
  | 2 => .r2
  | 3 => .r3
  | 4 => .r4
  | 5 => .r5
  | 6 => .r6
  | _ => .r7

/-- The opcode field `w[17:13]` (30_encoding.md R61). -/
def opField (w : IWord) : BitVec 5 := w.extractLsb' 13 5

/-- The register field `a`, `w[12:10]` (30_encoding.md R61). -/
def aField (w : IWord) : Reg := Reg.ofBits (w.extractLsb' 10 3)

/-- The register field `b`, `w[9:7]` (30_encoding.md R61). -/
def bField (w : IWord) : Reg := Reg.ofBits (w.extractLsb' 7 3)

/-- The register field `c`, `w[2:0]` (30_encoding.md R61). -/
def cField (w : IWord) : Reg := Reg.ofBits (w.extractLsb' 0 3)

/-- The 7-bit immediate: `w[6:0]` in two's complement (30_encoding.md R65). -/
def imm7Field (w : IWord) : Int := (w.extractLsb' 0 7).toInt

/-- The 10-bit immediate: `w[9:0]` unsigned (30_encoding.md R66). -/
def imm10Field (w : IWord) : Int := (w.extractLsb' 0 10).toNat

/-- Format RRR: `w[6:3]` must be 0 (30_encoding.md R61, R70). -/
def decodeRRR (w : IWord) (mk : Reg → Reg → Reg → Instr) : Except DecodeError Instr :=
  if w.extractLsb' 3 4 = 0#4 then .ok (mk (aField w) (bField w) (cField w)) else .error .mustBeZero

/-- Format RRI: no bit must be 0 (30_encoding.md R61, R70). -/
def decodeRRI (w : IWord) (mk : Reg → Reg → Int → Instr) : Except DecodeError Instr :=
  .ok (mk (aField w) (bField w) (imm7Field w))

/-- Format RI7: `w[9:7]` must be 0 (30_encoding.md R61, R70). -/
def decodeRI7 (w : IWord) (mk : Reg → Int → Instr) : Except DecodeError Instr :=
  if w.extractLsb' 7 3 = 0#3 then .ok (mk (aField w) (imm7Field w)) else .error .mustBeZero

/-- Format RR: `w[6:0]` must be 0 (30_encoding.md R61, R70). -/
def decodeRR (w : IWord) (mk : Reg → Reg → Instr) : Except DecodeError Instr :=
  if w.extractLsb' 0 7 = 0#7 then .ok (mk (aField w) (bField w)) else .error .mustBeZero

/-- Format R: `w[9:0]` must be 0 (30_encoding.md R61, R70). -/
def decodeR (w : IWord) (mk : Reg → Instr) : Except DecodeError Instr :=
  if w.extractLsb' 0 10 = 0#10 then .ok (mk (aField w)) else .error .mustBeZero

/-- Format RI10: no bit must be 0 (30_encoding.md R61, R70). -/
def decodeRI10 (w : IWord) (mk : Reg → Int → Instr) : Except DecodeError Instr :=
  .ok (mk (aField w) (imm10Field w))

/-- `Decode(w)`: the opcode numbers and formats of 30_encoding.md R62; the illegal words of R69 and R70 are rejected by name. -/
def decode (w : IWord) : Except DecodeError Instr :=
  match (opField w).toNat with
  | 0 => decodeRRR w Instr.add
  | 1 => decodeRRI w Instr.addi
  | 2 => decodeRRR w Instr.sub
  | 3 => decodeRRI w Instr.subi
  | 4 => decodeRRR w Instr.and
  | 5 => decodeRRI w Instr.andi
  | 6 => decodeRRR w Instr.or
  | 7 => decodeRRI w Instr.ori
  | 8 => decodeRRR w Instr.nand
  | 9 => decodeRRR w Instr.nor
  | 10 => decodeRRR w Instr.mul
  | 11 => decodeRRI w Instr.muli
  | 12 => decodeRRR w Instr.div
  | 13 => decodeRRI w Instr.divi
  | 14 => decodeRRR w Instr.mod
  | 15 => decodeRRI w Instr.modi
  | 16 => decodeRRI w Instr.lw
  | 17 => decodeRRI w Instr.sw
  | 18 => decodeRRI w Instr.beq
  | 19 => decodeRRI w Instr.bne
  | 20 => decodeRRI w Instr.bgt
  | 21 => decodeRRI w Instr.blt
  | 22 => decodeRRI w Instr.bge
  | 23 => decodeRRI w Instr.ble
  | 24 => decodeRI7 w Instr.jmp
  | 25 => decodeR w Instr.ret
  | 26 => decodeRR w Instr.jalr
  | 27 => decodeRI10 w Instr.lui
  | _ => .error .reservedOpcode

/-- Format RRR, `oooooaaabbb0000ccc` (30_encoding.md R61). -/
def packRRR (op : BitVec 5) (a b c : Reg) : IWord := op ++ a.bits ++ b.bits ++ 0#4 ++ c.bits

/-- Format RRI, `oooooaaabbbiiiiiii`, with `imm mod 128` in `w[6:0]` (30_encoding.md R61, R73). -/
def packRRI (op : BitVec 5) (a b : Reg) (imm : Int) : IWord := op ++ a.bits ++ b.bits ++ BitVec.ofInt 7 imm

/-- Format RI7, `oooooaaa000iiiiiii` (30_encoding.md R61, R73). -/
def packRI7 (op : BitVec 5) (a : Reg) (imm : Int) : IWord := op ++ a.bits ++ 0#3 ++ BitVec.ofInt 7 imm

/-- Format RR, `oooooaaabbb0000000` (30_encoding.md R61). -/
def packRR (op : BitVec 5) (a b : Reg) : IWord := op ++ a.bits ++ b.bits ++ 0#7

/-- Format R, `oooooaaa0000000000` (30_encoding.md R61). -/
def packR (op : BitVec 5) (a : Reg) : IWord := op ++ a.bits ++ 0#10

/-- Format RI10, `oooooaaaiiiiiiiiii` (30_encoding.md R61, R73). -/
def packRI10 (op : BitVec 5) (a : Reg) (imm : Int) : IWord := op ++ a.bits ++ BitVec.ofInt 10 imm

/-- `Encode`: the word of an instruction; meant for well-formed ones (30_encoding.md R62, R73, R74). -/
def encode : Instr → IWord
  | .add a b c => packRRR 0 a b c
  | .addi a b imm => packRRI 1 a b imm
  | .sub a b c => packRRR 2 a b c
  | .subi a b imm => packRRI 3 a b imm
  | .and a b c => packRRR 4 a b c
  | .andi a b imm => packRRI 5 a b imm
  | .or a b c => packRRR 6 a b c
  | .ori a b imm => packRRI 7 a b imm
  | .nand a b c => packRRR 8 a b c
  | .nor a b c => packRRR 9 a b c
  | .mul a b c => packRRR 10 a b c
  | .muli a b imm => packRRI 11 a b imm
  | .div a b c => packRRR 12 a b c
  | .divi a b imm => packRRI 13 a b imm
  | .mod a b c => packRRR 14 a b c
  | .modi a b imm => packRRI 15 a b imm
  | .lw a b imm => packRRI 16 a b imm
  | .sw a b imm => packRRI 17 a b imm
  | .beq a b imm => packRRI 18 a b imm
  | .bne a b imm => packRRI 19 a b imm
  | .bgt a b imm => packRRI 20 a b imm
  | .blt a b imm => packRRI 21 a b imm
  | .bge a b imm => packRRI 22 a b imm
  | .ble a b imm => packRRI 23 a b imm
  | .jmp a imm => packRI7 24 a imm
  | .ret a => packR 25 a
  | .jalr a b => packRR 26 a b
  | .lui a imm => packRI10 27 a imm

/-- The 18-bit word of `nbits` bits given as a number, as the instruction store holds it: the store keeps bits 17 to 0 and no
others (30_encoding.md R61). -/
def tableWord (nbits w : Nat) : IWord := BitVec.ofNat 18 (w % 2 ^ nbits)

/-- The instruction the decoder reads from a word numbered as the opcode table numbers it: bit 0 the least significant of the one
18-bit word an instruction has (30_encoding.md R61). -/
def decodeTableWord (nbits w : Nat) : Option Instr :=
  match decode (tableWord nbits w) with
  | .ok i => some i
  | .error _ => none

end Sys2Proof
end

