-- ==== Sys2Proof/Machine/Fetch.lean ====
section
/-! DEFINITION. Instruction fetch (spec/30_encoding.md R80, R81): when a step is enabled, the fetch check, the fetch-advance, and
where a word must stand to be fetched next. -/

namespace Sys2Proof.Machine

/-- A step is enabled when a program is installed and neither latch is set (30_encoding.md R80, 10_state.md R28). -/
def stepEnabled (s : State) : Bool := !s.imem.isEmpty && !s.halted && s.fault.isNone

/-- The fetch at `pc`: it succeeds exactly when `pc` is even and `pc / 2 < N`, and gives instruction `pc / 2`
(30_encoding.md R81). -/
def fetch (s : State) : Option IWord :=
  if s.pc.toNat % 2 = 0 then s.imem[s.pc.toNat / 2]? else none

/-- The fetch-advance: `pc <- A + 2` (30_encoding.md R80). -/
def fetchAdvance (s : State) : State := s.incrementPc 2

/-- The instruction store with `w` at position `k`; positions below `k` that held nothing become `add r0, r0, r0`, the all-zero
word (30_encoding.md R71). -/
def placeInstruction (imem : List IWord) (k : Nat) (w : IWord) : List IWord :=
  if k < imem.length then imem.set k w else imem ++ List.replicate (k - imem.length) 0 ++ [w]

/-- `s` made to fetch `w` next: `w` at position `pc / 2` of the instruction store, an odd pc made even, and the latches, which
would forbid the step, cleared (30_encoding.md R80; log entry 7). -/
def placeFetchWord (s : State) (w : IWord) : State :=
  { s with
    pc := s.pc &&& 0xFFFE
    halted := false
    fault := none
    imem := placeInstruction s.imem (s.pc.toNat / 2) w }

end Sys2Proof.Machine
end

