-- ==== Sys2Proof/Machine/Cycle.lean ====
section
/-! DEFINITION. One `Step` (spec/30_encoding.md R80): enabled check, fetch, fetch-advance, decode, dispatch. -/

namespace Sys2Proof.Machine

/-- `Step` (30_encoding.md R80). A fetch that fails leaves the pc (R81); a word that encodes nothing is met after the fetch-advance
(60_exceptions.md R183); every handler sees `pc = A + 2`. Where no step is enabled the outcome says why (log entry 1). -/
def cycle (s : State) : Result :=
  if s.imem = [] then .refused .noProgram
  else if s.halted then .refused .halted
  else
    match s.fault with
    | some f => .fault f
    | none =>
      match fetch s with
      | none => takeFault (.invalidFetch s.pc) s
      | some w =>
        match decode w with
        | .error _ => takeFault (.illegalInstruction w) (fetchAdvance s)
        | .ok i => exec i (fetchAdvance s)

end Sys2Proof.Machine
end

