-- ==== Sys2Proof/Machine/Step.lean ====
section
/-! DEFINITION. The step function under its fixed name (spec/30_encoding.md R80), and the placing of a word where it fetches. -/

namespace Sys2Proof.Machine

/-- One step of the core (30_encoding.md R80). -/
def step : State → Host.Outcome State Fault Refusal := cycle

/-- `s` with an instruction, numbered as the opcode table numbers it, stored where `step` fetches next; it stands for a Load of that
instruction (log entry 7). -/
def State.withFetchWord (s : State) (nbits w : Nat) : State := placeFetchWord s (tableWord nbits w)

end Sys2Proof.Machine
end

