-- ==== Sys2Proof/Machine/Lexer.lean ====
section
/-! DEFINITION. The lexical part of the assembler (spec/40_assembler_resolver.md R91 to R95): lines, comments, labels, operands,
numeric literals and register names. Log entry 11 says what no rule settles here. -/

namespace Sys2Proof.Machine

/-- White space: space, tab, line feed, vertical tab, form feed, carriage return (log entry 11). -/
def isSpace (c : Char) : Bool := c = ' ' || (9 ≤ c.toNat && c.toNat ≤ 13)

/-- The pieces of a text between the characters that satisfy `p`; always at least one piece. -/
def splitWhere (p : Char → Bool) : Text → List Text
  | [] => [[]]
  | c :: t =>
    if p c then [] :: splitWhere p t
    else
      match splitWhere p t with
      | [] => [[c]]
      | piece :: rest => (c :: piece) :: rest

/-- A text without its leading and trailing white space. -/
def trim (t : Text) : Text := ((t.dropWhile isSpace).reverse.dropWhile isSpace).reverse

/-- Lower case of the ASCII letters (40_assembler_resolver.md R91; log entry 11). -/
def lowerCase (t : Text) : Text := t.map Char.toLower

/-- The lines of a text (log entry 11). -/
def splitLines (t : Text) : List Text := splitWhere (· = '\n') t

/-- A line up to its first `#` (40_assembler_resolver.md R91). -/
def stripComment (t : Text) : Text := t.takeWhile (· ≠ '#')

/-- Normalize: the non-blank source lines of a program text (40_assembler_resolver.md R91). -/
def normalize (t : Text) : List Text :=
  ((splitLines (lowerCase t)).map fun l => trim (stripComment l)).filter fun l => !l.isEmpty

/-- What stands before the first character that is `c`, and what stands after it. -/
def splitFirst (c : Char) (t : Text) : Text × Text :=
  (t.takeWhile (· ≠ c), (t.dropWhile (· ≠ c)).drop 1)

/-- Operand parse: the mnemonic before the first space, and the comma-separated operands after it, each trimmed; an empty operand
text is no operand (40_assembler_resolver.md R93; log entry 13). -/
def operandParse (line : Text) : Text × List Text :=
  let (name, rest) := splitFirst ' ' line
  (name, if (trim rest).isEmpty then [] else (splitWhere (· = ',') rest).map trim)

/-- The pieces of a line between white space (40_assembler_resolver.md R112). -/
def splitWords (t : Text) : List Text := (splitWhere isSpace t).filter fun w => !w.isEmpty

/-- The value of a decimal digit. -/
def decimalDigit (c : Char) : Option Nat :=
  if '0'.toNat ≤ c.toNat ∧ c.toNat ≤ '9'.toNat then some (c.toNat - '0'.toNat) else none

/-- The value of a hexadecimal digit, in either case. -/
def hexDigit (c : Char) : Option Nat :=
  if 'a'.toNat ≤ c.toNat ∧ c.toNat ≤ 'f'.toNat then some (c.toNat - 'a'.toNat + 10)
  else if 'A'.toNat ≤ c.toNat ∧ c.toNat ≤ 'F'.toNat then some (c.toNat - 'A'.toNat + 10)
  else decimalDigit c

/-- The number some digits spell in a base, after the digits already read; none where a character is no digit. -/
def digitsFrom (digit : Char → Option Nat) (base : Nat) : Text → Nat → Option Nat
  | [], acc => some acc
  | c :: t, acc =>
    match digit c with
    | some d => digitsFrom digit base t (acc * base + d)
    | none => none

/-- The number one or more digits spell in a base. -/
def digitsValue (digit : Char → Option Nat) (base : Nat) (t : Text) : Option Nat :=
  if t.isEmpty then none else digitsFrom digit base t 0

/-- A numeric literal, `-?[0-9]+` or `0[xX][0-9a-fA-F]+`, as an exact integer (40_assembler_resolver.md R94). -/
def parseLiteral (t : Text) : Option Int :=
  match t with
  | '0' :: 'x' :: ds => (digitsValue hexDigit 16 ds).map Int.ofNat
  | '0' :: 'X' :: ds => (digitsValue hexDigit 16 ds).map Int.ofNat
  | '-' :: ds => (digitsValue decimalDigit 10 ds).map fun n => -(n : Int)
  | ds => (digitsValue decimalDigit 10 ds).map Int.ofNat

/-- `lookup(name)`: the registers are named `r0` to `r7`, in either case (10_state.md R23, 40_assembler_resolver.md R95). -/
def lookupRegister (t : Text) : Option Reg :=
  match lowerCase t with
  | ['r', '0'] => some .r0
  | ['r', '1'] => some .r1
  | ['r', '2'] => some .r2
  | ['r', '3'] => some .r3
  | ['r', '4'] => some .r4
  | ['r', '5'] => some .r5
  | ['r', '6'] => some .r6
  | ['r', '7'] => some .r7
  | _ => none

end Sys2Proof.Machine
end

