-- ==== Sys2Proof/Machine/Signature.lean ====
section
/-! DEFINITION. The tables of spec/30_encoding.md over the 28 mnemonics: names, opcode map (R62), operand-kind signatures (R63),
functional classes (R62, R83), and the binding of operands by position (R82). -/

namespace Sys2Proof.Machine

/-- The operand kinds of a signature (30_encoding.md R63). -/
inductive OperandKind where
  | register
  | immediate
deriving DecidableEq, Repr

/-- The functional-class tags (30_encoding.md R83, 90_conflicts.md C2). -/
inductive FunctionalClass where
  | alu
  | multiply
  | divide
  | load
  | store
  | branch
  | jump
  | ret
  | jumpAndLink
deriving DecidableEq, Repr

/-- Every mnemonic, in opcode order (30_encoding.md R62). -/
def allMnemonics : List Mnemonic :=
  [.add, .addi, .sub, .subi, .and, .andi, .or, .ori, .nand, .nor, .mul, .muli, .div, .divi,
   .mod, .modi, .lw, .sw, .beq, .bne, .bgt, .blt, .bge, .ble, .jmp, .ret, .jalr, .lui]

/-- The textual opcode name, in lower case (30_encoding.md R62). -/
def mnemonicName : Mnemonic → Text
  | .add => "add".toList
  | .addi => "addi".toList
  | .sub => "sub".toList
  | .subi => "subi".toList
  | .and => "and".toList
  | .andi => "andi".toList
  | .or => "or".toList
  | .ori => "ori".toList
  | .nand => "nand".toList
  | .nor => "nor".toList
  | .mul => "mul".toList
  | .muli => "muli".toList
  | .div => "div".toList
  | .divi => "divi".toList
  | .mod => "mod".toList
  | .modi => "modi".toList
  | .lw => "lw".toList
  | .sw => "sw".toList
  | .beq => "beq".toList
  | .bne => "bne".toList
  | .bgt => "bgt".toList
  | .blt => "blt".toList
  | .bge => "bge".toList
  | .ble => "ble".toList
  | .jmp => "jmp".toList
  | .ret => "ret".toList
  | .jalr => "jalr".toList
  | .lui => "lui".toList

/-- The mnemonic a text names, if any (40_assembler_resolver.md R102). -/
def mnemonicOf (t : Text) : Option Mnemonic := allMnemonics.find? fun m => mnemonicName m == t

/-- The operand-kind signature table (30_encoding.md R63). -/
def signature : Mnemonic → List OperandKind
  | .add => [.register, .register, .register]
  | .addi => [.register, .register, .immediate]
  | .sub => [.register, .register, .register]
  | .subi => [.register, .register, .immediate]
  | .and => [.register, .register, .register]
  | .andi => [.register, .register, .immediate]
  | .or => [.register, .register, .register]
  | .ori => [.register, .register, .immediate]
  | .nand => [.register, .register, .register]
  | .nor => [.register, .register, .register]
  | .mul => [.register, .register, .register]
  | .muli => [.register, .register, .immediate]
  | .div => [.register, .register, .register]
  | .divi => [.register, .register, .immediate]
  | .mod => [.register, .register, .register]
  | .modi => [.register, .register, .immediate]
  | .lw => [.register, .register, .immediate]
  | .sw => [.register, .register, .immediate]
  | .beq => [.register, .register, .immediate]
  | .bne => [.register, .register, .immediate]
  | .bgt => [.register, .register, .immediate]
  | .blt => [.register, .register, .immediate]
  | .bge => [.register, .register, .immediate]
  | .ble => [.register, .register, .immediate]
  | .jmp => [.register, .immediate]
  | .ret => [.register]
  | .jalr => [.register, .register]
  | .lui => [.register, .immediate]

/-- The mnemonics whose Immediate slot accepts a label (30_encoding.md R63, 40_assembler_resolver.md R103). -/
def acceptsLabel (m : Mnemonic) : Bool := m ∈ [Mnemonic.beq, Mnemonic.bne, Mnemonic.bgt, Mnemonic.blt, Mnemonic.bge, Mnemonic.ble, Mnemonic.jmp]

/-- The column `match` of the opcode map (30_encoding.md R62). -/
def matchBits : Mnemonic → IWord
  | .add => 0x00000
  | .addi => 0x02000
  | .sub => 0x04000
  | .subi => 0x06000
  | .and => 0x08000
  | .andi => 0x0A000
  | .or => 0x0C000
  | .ori => 0x0E000
  | .nand => 0x10000
  | .nor => 0x12000
  | .mul => 0x14000
  | .muli => 0x16000
  | .div => 0x18000
  | .divi => 0x1A000
  | .mod => 0x1C000
  | .modi => 0x1E000
  | .lw => 0x20000
  | .sw => 0x22000
  | .beq => 0x24000
  | .bne => 0x26000
  | .bgt => 0x28000
  | .blt => 0x2A000
  | .bge => 0x2C000
  | .ble => 0x2E000
  | .jmp => 0x30000
  | .ret => 0x32000
  | .jalr => 0x34000
  | .lui => 0x36000

/-- The column `mask` of the opcode map (30_encoding.md R62). -/
def maskBits : Mnemonic → IWord
  | .add => 0x3E078
  | .addi => 0x3E000
  | .sub => 0x3E078
  | .subi => 0x3E000
  | .and => 0x3E078
  | .andi => 0x3E000
  | .or => 0x3E078
  | .ori => 0x3E000
  | .nand => 0x3E078
  | .nor => 0x3E078
  | .mul => 0x3E078
  | .muli => 0x3E000
  | .div => 0x3E078
  | .divi => 0x3E000
  | .mod => 0x3E078
  | .modi => 0x3E000
  | .lw => 0x3E000
  | .sw => 0x3E000
  | .beq => 0x3E000
  | .bne => 0x3E000
  | .bgt => 0x3E000
  | .blt => 0x3E000
  | .bge => 0x3E000
  | .ble => 0x3E000
  | .jmp => 0x3E380
  | .ret => 0x3E3FF
  | .jalr => 0x3E07F
  | .lui => 0x3E000

/-- The column `class` of the opcode map (30_encoding.md R62, R83). -/
def functionalClass : Mnemonic → FunctionalClass
  | .add => .alu
  | .addi => .alu
  | .sub => .alu
  | .subi => .alu
  | .and => .alu
  | .andi => .alu
  | .or => .alu
  | .ori => .alu
  | .nand => .alu
  | .nor => .alu
  | .mul => .multiply
  | .muli => .multiply
  | .div => .divide
  | .divi => .divide
  | .mod => .divide
  | .modi => .divide
  | .lw => .load
  | .sw => .store
  | .beq => .branch
  | .bne => .branch
  | .bgt => .branch
  | .blt => .branch
  | .bge => .branch
  | .ble => .branch
  | .jmp => .jump
  | .ret => .ret
  | .jalr => .jumpAndLink
  | .lui => .alu

/-- Binding by position: the instruction of a mnemonic and concrete operands; none where number or kinds differ from the
signature, or a label is left (30_encoding.md R67, R82). -/
def bindOperands : Mnemonic → List Operand → Option Instr
  | .add, [.reg a, .reg b, .reg c] => some (.add a b c)
  | .addi, [.reg a, .reg b, .imm n] => some (.addi a b n)
  | .sub, [.reg a, .reg b, .reg c] => some (.sub a b c)
  | .subi, [.reg a, .reg b, .imm n] => some (.subi a b n)
  | .and, [.reg a, .reg b, .reg c] => some (.and a b c)
  | .andi, [.reg a, .reg b, .imm n] => some (.andi a b n)
  | .or, [.reg a, .reg b, .reg c] => some (.or a b c)
  | .ori, [.reg a, .reg b, .imm n] => some (.ori a b n)
  | .nand, [.reg a, .reg b, .reg c] => some (.nand a b c)
  | .nor, [.reg a, .reg b, .reg c] => some (.nor a b c)
  | .mul, [.reg a, .reg b, .reg c] => some (.mul a b c)
  | .muli, [.reg a, .reg b, .imm n] => some (.muli a b n)
  | .div, [.reg a, .reg b, .reg c] => some (.div a b c)
  | .divi, [.reg a, .reg b, .imm n] => some (.divi a b n)
  | .mod, [.reg a, .reg b, .reg c] => some (.mod a b c)
  | .modi, [.reg a, .reg b, .imm n] => some (.modi a b n)
  | .lw, [.reg a, .reg b, .imm n] => some (.lw a b n)
  | .sw, [.reg a, .reg b, .imm n] => some (.sw a b n)
  | .beq, [.reg a, .reg b, .imm n] => some (.beq a b n)
  | .bne, [.reg a, .reg b, .imm n] => some (.bne a b n)
  | .bgt, [.reg a, .reg b, .imm n] => some (.bgt a b n)
  | .blt, [.reg a, .reg b, .imm n] => some (.blt a b n)
  | .bge, [.reg a, .reg b, .imm n] => some (.bge a b n)
  | .ble, [.reg a, .reg b, .imm n] => some (.ble a b n)
  | .jmp, [.reg a, .imm n] => some (.jmp a n)
  | .ret, [.reg a] => some (.ret a)
  | .jalr, [.reg a, .reg b] => some (.jalr a b)
  | .lui, [.reg a, .imm n] => some (.lui a n)
  | _, _ => none

end Sys2Proof.Machine
end

