-- ==== Sys2Proof/WellFormed.lean ====
section
/-! DEFINITION. Well-formed instructions (spec/30_encoding.md R74). The number and kinds of the operands and the register indices
are right by the types of `Instr`; what is left to check is the immediate's range. -/

namespace Sys2Proof

/-- The immediate windows: [0, 0x3FF] for `lui`, [-64, 63] for every other mnemonic (30_encoding.md R65, R66, R74;
40_assembler_resolver.md R103). -/
def immInRange (m : Mnemonic) (n : Int) : Bool :=
  if m = .lui then decide (0 ≤ n ∧ n ≤ 0x3FF) else decide (-64 ≤ n ∧ n ≤ 63)

/-- One operand of a well-formed instruction: no label is left (30_encoding.md R67) and an immediate is in its window. -/
def operandOk (m : Mnemonic) : Operand → Bool
  | .reg _ => true
  | .imm n => immInRange m n
  | .label _ => false

/-- An instruction is well formed when every operand is (30_encoding.md R74). -/
def Instr.wellFormed (i : Instr) : Bool := i.operands.all (operandOk i.mnemonic)

end Sys2Proof
end

