-- ==== Sys2Proof/Machine/Assembler.lean ====
section
/-! DEFINITION. The assembler's program part and the branch and jump address resolver (spec/40_assembler_resolver.md R92 to R110,
R116): labels, pseudo-instructions, the parse of a real instruction, and label fixup. -/

namespace Sys2Proof.Machine

/-- The assembly-time errors (40_assembler_resolver.md R110). None changes the core's state (R111). -/
inductive AsmError where
  /-- No line is left, or the lines install nothing (R91, R109). -/
  | emptyProgram
  /-- Nothing stands before the `:` (R92). -/
  | emptyLabel
  /-- Nothing stands after the `:` (R92). -/
  | labelOnlyLine
  /-- A label is defined twice (R107). -/
  | duplicateLabel
  /-- No pseudo or real mnemonic has this name (R102). -/
  | unknownMnemonic
  /-- The number of operands is wrong (R96, R102). -/
  | arityMismatch
  /-- A register name is not `r0` to `r7` (R95). -/
  | unknownRegister
  /-- An immediate is outside its window (R99, R100, R103). -/
  | immediateOutOfRange
  /-- A token is no literal where no label is allowed (R96, R103). -/
  | badLiteral
  /-- A label is not defined (R106). -/
  | undefinedLabel
  /-- A resolved offset is outside [-64, 63] (R105). -/
  | branchOutOfRange
  /-- More than `IMEM_MAX` instructions (R109). -/
  | programTooLarge
  /-- A data line is not an address and a value (R112). -/
  | badDataLine
  /-- A data address is no valid word address (R112). -/
  | badDataAddress
  /-- A data value is outside [-32768, 32767] (R112). -/
  | dataValueOutOfRange
deriving DecidableEq, Repr

/-- The one message a failed Load of these texts gives for its error: "enter one or more instructions" for an empty program, whose
wording alone the spec states (R91, R110); a free value for the others (log entry 20). -/
def AsmError.message (e : AsmError) (dataText programText : Text) : Text :=
  match e with
  | .emptyProgram => "enter one or more instructions".toList
  | .emptyLabel => Config.errorWording 2 dataText programText
  | .labelOnlyLine => Config.errorWording 3 dataText programText
  | .duplicateLabel => Config.errorWording 4 dataText programText
  | .unknownMnemonic => Config.errorWording 5 dataText programText
  | .arityMismatch => Config.errorWording 6 dataText programText
  | .unknownRegister => Config.errorWording 7 dataText programText
  | .immediateOutOfRange => Config.errorWording 8 dataText programText
  | .badLiteral => Config.errorWording 9 dataText programText
  | .undefinedLabel => Config.errorWording 10 dataText programText
  | .branchOutOfRange => Config.errorWording 11 dataText programText
  | .programTooLarge => Config.errorWording 12 dataText programText
  | .badDataLine => Config.errorWording 13 dataText programText
  | .badDataAddress => Config.errorWording 14 dataText programText
  | .dataValueOutOfRange => Config.errorWording 15 dataText programText

/-- The pseudo mnemonics (R96). -/
inductive Pseudo where
  | nop
  | halt
  | lli
  | movi
  | fill
  | space
deriving DecidableEq, Repr

/-- The pseudo mnemonic a text names, if any (R96). -/
def pseudoOf (t : Text) : Option Pseudo :=
  if t = "nop".toList then some .nop
  else if t = "halt".toList then some .halt
  else if t = "lli".toList then some .lli
  else if t = "movi".toList then some .movi
  else if t = ".fill".toList then some .fill
  else if t = ".space".toList then some .space
  else none

/-- An operand of a line before it is bound: source text, or the number an expansion computed. -/
inductive Token where
  | text (t : Text)
  | number (n : Int)
deriving DecidableEq, Repr

/-- A line of one real instruction, from the source or synthesized by an expansion. -/
structure RealLine where
  mnemonic : Text
  operands : List Token
deriving DecidableEq, Repr

/-- A parsed instruction that may still hold a label (R106). -/
structure Staged where
  mnemonic : Mnemonic
  operands : List Operand
deriving DecidableEq, Repr

/-- The literal operand of `lli` and `movi`: a label there is an error (R96), and so is a number outside the range. -/
def pseudoImmediate (lo hi : Int) (t : Text) : Except AsmError Int :=
  match parseLiteral t with
  | none => .error .badLiteral
  | some n => if lo ≤ n ∧ n ≤ hi then .ok n else .error .immediateOutOfRange

/-- `imm & 0x3F` on the two's-complement form of `imm` (R99, R100). -/
def lowSix (n : Int) : Int := n % 64

/-- `imm >> 6` (R100). -/
def upperTen (n : Int) : Int := n / 64

/-- The expansion of a pseudo-instruction, with fixed arity (R96 to R101). -/
def expandPseudo : Pseudo → List Text → Except AsmError (List RealLine)
  | .nop, [] => .ok [⟨"add".toList, [.text "r0".toList, .text "r0".toList, .text "r0".toList]⟩]
  | .halt, [] => .ok [⟨"jalr".toList, [.text "r0".toList, .text "r0".toList]⟩]
  | .lli, [rd, imm] => do
    let n ← pseudoImmediate (-32768) 65535 imm
    .ok [⟨"addi".toList, [.text rd, .text rd, .number (lowSix n)]⟩]
  | .movi, [rd, imm] => do
    let n ← pseudoImmediate 0 0xFFFF imm
    .ok [⟨"lui".toList, [.text rd, .number (upperTen n)]⟩,
      ⟨"addi".toList, [.text rd, .text rd, .number (lowSix n)]⟩]
  | .fill, [_] => .ok []
  | .space, [_] => .ok []
  | _, _ => .error .arityMismatch

/-- Pseudo-instructions are recognised before real ones; any other line stands for itself (R96). -/
def expand (name : Text) (operands : List Text) : Except AsmError (List RealLine) :=
  match pseudoOf name with
  | some p => expandPseudo p operands
  | none => .ok [⟨name, operands.map .text⟩]

/-- A Register slot (R95). -/
def bindRegister : Token → Except AsmError Operand
  | .text t =>
    match lookupRegister t with
    | some r => .ok (.reg r)
    | none => .error .unknownRegister
  | .number _ => .error .unknownRegister

/-- An Immediate slot's literal and its range check (R103). -/
def rangeChecked (m : Mnemonic) (n : Int) : Except AsmError Operand :=
  if immInRange m n then .ok (.imm n) else .error .immediateOutOfRange

/-- An Immediate slot: a literal if the token is one, else a label where the mnemonic accepts one (R103). -/
def bindImmediate (m : Mnemonic) : Token → Except AsmError Operand
  | .number n => rangeChecked m n
  | .text t =>
    match parseLiteral t with
    | some n => rangeChecked m n
    | none => if acceptsLabel m then .ok (.label t) else .error .badLiteral

/-- One operand, by the kind of its slot (R102). -/
def bindSlot (m : Mnemonic) : OperandKind → Token → Except AsmError Operand
  | .register, t => bindRegister t
  | .immediate, t => bindImmediate m t

/-- The operands of a line, by position, from the left (R102; log entry 13). -/
def bindSlots (m : Mnemonic) : List OperandKind → List Token → Except AsmError (List Operand)
  | [], [] => .ok []
  | k :: ks, t :: ts => do
    let o ← bindSlot m k t
    let os ← bindSlots m ks ts
    .ok (o :: os)
  | _, _ => .error .arityMismatch

/-- Real-instruction parse: mnemonic, operand count, then the operands (R102). -/
def parseReal (line : RealLine) : Except AsmError Staged :=
  match mnemonicOf line.mnemonic with
  | none => .error .unknownMnemonic
  | some m =>
    if line.operands.length = (signature m).length then do
      let os ← bindSlots m (signature m) line.operands
      .ok ⟨m, os⟩
    else .error .arityMismatch

/-- The lines of one expansion, in order. -/
def parseReals : List RealLine → Except AsmError (List Staged)
  | [] => .ok []
  | l :: ls => do
    let s ← parseReal l
    let rest ← parseReals ls
    .ok (s :: rest)

/-- What an assembly has so far: the staged instructions and the label table (R104, R115). -/
structure Assembly where
  staged : List Staged
  labels : List (Text × Nat)
deriving DecidableEq, Repr

/-- Define a label at the address of the next instruction to be installed; a second definition is rejected (R104, R107). -/
def Assembly.define (asm : Assembly) (label : Text) : Except AsmError Assembly :=
  if (asm.labels.lookup label).isSome then .error .duplicateLabel
  else .ok { asm with labels := asm.labels ++ [(label, 2 * asm.staged.length)] }

/-- The label of a line, split off at the first `:` and defined, and the rest of the line (R92). -/
def takeLabel (asm : Assembly) (line : Text) : Except AsmError (Assembly × Text) :=
  if ':' ∈ line then
    let label := trim (splitFirst ':' line).1
    let rest := trim (splitFirst ':' line).2
    if label = [] then .error .emptyLabel
    else if rest = [] then .error .labelOnlyLine
    else do
      let asm' ← asm.define label
      .ok (asm', rest)
  else .ok (asm, line)

/-- One source line: label, operand parse, expansion, and the parse of what it expands to (R116). -/
def assembleLine (asm : Assembly) (line : Text) : Except AsmError Assembly := do
  let (asm', rest) ← takeLabel asm line
  let (name, operands) := operandParse rest
  let lines ← expand name operands
  let more ← parseReals lines
  .ok { asm' with staged := asm'.staged ++ more }

/-- The source lines in order; the first error ends the assembly (R90, R116). -/
def assembleLines : List Text → Assembly → Except AsmError Assembly
  | [], asm => .ok asm
  | l :: ls, asm => do
    let asm' ← assembleLine asm l
    assembleLines ls asm'

/-- `Resolve(branchAddr, targetAddr)`: the offset `targetAddr - (branchAddr + 2)`, computed with no wrap, if it lies in [-64, 63]
(R105). -/
def resolve (branchAddr targetAddr : Int) : Except AsmError Int :=
  let off := targetAddr - (branchAddr + 2)
  if -64 ≤ off ∧ off ≤ 63 then .ok off else .error .branchOutOfRange

/-- Label fixup of one operand of the instruction at position `j` (R106). -/
def fixupOperand (labels : List (Text × Nat)) (j : Nat) : Operand → Except AsmError Operand
  | .label name =>
    match labels.lookup name with
    | none => .error .undefinedLabel
    | some target => do
      let off ← resolve (2 * j) target
      .ok (.imm off)
  | .reg r => .ok (.reg r)
  | .imm n => .ok (.imm n)

/-- Label fixup of an operand list (R106). -/
def fixupOperands (labels : List (Text × Nat)) (j : Nat) : List Operand → Except AsmError (List Operand)
  | [] => .ok []
  | o :: os => do
    let o' ← fixupOperand labels j o
    let os' ← fixupOperands labels j os
    .ok (o' :: os')

/-- The resolved instruction of a staged one at position `j`. The binding cannot fail on what `parseReal` accepts, whose operands
have the signature's number and kinds; the function is total by naming an error all the same (R106, R108). -/
def fixup (labels : List (Text × Nat)) (j : Nat) (st : Staged) : Except AsmError Instr := do
  let os ← fixupOperands labels j st.operands
  match bindOperands st.mnemonic os with
  | some i => .ok i
  | none => .error .arityMismatch

/-- Label fixup of the staged instructions from position `j` on (R106). -/
def fixupAll (labels : List (Text × Nat)) : Nat → List Staged → Except AsmError (List Instr)
  | _, [] => .ok []
  | j, st :: rest => do
    let i ← fixup labels j st
    let is ← fixupAll labels (j + 1) rest
    .ok (i :: is)

/-- The program part of Load: normalize, assemble the lines, check the size, resolve the labels (R116). -/
def assembleProgram (programText : Text) : Except AsmError (List Instr) :=
  let lines := normalize programText
  if lines = [] then .error .emptyProgram
  else do
    let asm ← assembleLines lines ⟨[], []⟩
    if asm.staged = [] then .error .emptyProgram
    else if imemMax < asm.staged.length then .error .programTooLarge
    else fixupAll asm.labels 0 asm.staged

end Sys2Proof.Machine
end

