-- ==== Sys2Proof/Machine/Report.lean ====
section
/-! DEFINITION. The result record a step emits (spec/30_encoding.md R83): an output that nothing reads, so no state (log entry 10). -/

namespace Sys2Proof.Machine

/-- The record's last component: the touched memory address or the resulting pc (30_encoding.md R83). -/
inductive ResultInfo where
  | pc (a : Addr)
  | addr (ea : Int)
deriving DecidableEq, Repr

/-- The result record `(class, dest, info)` (30_encoding.md R83). -/
structure ResultRecord where
  /-- The functional class tag. -/
  tag : FunctionalClass
  /-- The destination field, also when it is 0 and the write was dropped; none where there is no destination. -/
  dest : Option Reg
  /-- The touched address or the resulting pc. -/
  info : ResultInfo
deriving DecidableEq, Repr

/-- The first register operand. -/
def firstReg : List Operand → Option Reg
  | .reg r :: _ => some r
  | _ => none

/-- The column `dest` of 30_encoding.md R83: field `a` for the classes that write a register, none for the others. -/
def recordDest (i : Instr) : Option Reg :=
  match functionalClass i.mnemonic with
  | .alu | .multiply | .divide | .load | .jumpAndLink => firstReg i.operands
  | .store | .branch | .jump | .ret => none

/-- The effective address of a memory instruction in the state its handler sees; none for the others. -/
def touchedAddress (i : Instr) (s : State) : Option Int :=
  match i.mnemonic, i.operands with
  | .lw, [_, .reg b, .imm n] => some (effectiveAddress s b n)
  | .sw, [_, .reg b, .imm n] => some (effectiveAddress s b n)
  | _, _ => none

/-- The record of instruction `i` that took the handler's state `s` to `t` (30_encoding.md R83). -/
def resultRecord (i : Instr) (s t : State) : ResultRecord where
  tag := functionalClass i.mnemonic
  dest := recordDest i
  info :=
    match touchedAddress i s with
    | some ea => .addr ea
    | none => .pc t.pc

/-- The record `step s` emits: one when the step completes without fault, else none (30_encoding.md R80, R83). -/
def stepRecord (s : State) : Option ResultRecord :=
  if stepEnabled s then
    match fetch s with
    | none => none
    | some w =>
      match decode w with
      | .error _ => none
      | .ok i =>
        match exec i (fetchAdvance s) with
        | .next t => if t.fault = none then some (resultRecord i (fetchAdvance s) t) else none
        | _ => none
  else none

end Sys2Proof.Machine
end

