-- ==== Sys2Proof/Machine/Loader.lean ====
section
/-! DEFINITION. The host's side (spec/70_reset_and_hazards.md R200 to R208, 40_assembler_resolver.md R90, R111, R112, R116): `Load`,
`Reset`, `Step` and what each gives back. -/

namespace Sys2Proof.Machine

/-- One line of the data segment, an address and a value, written to the image; a blank line writes nothing
(40_assembler_resolver.md R112; log entry 12). -/
def dataLine (p : Params) (image : Memory) (line : Text) : Except AsmError Memory :=
  match splitWords line with
  | [] => .ok image
  | [addrText, valueText] =>
    match parseLiteral addrText, parseLiteral valueText with
    | some addr, some value =>
      if isWordAddress p addr then
        if -32768 ≤ value ∧ value ≤ 32767 then .ok (image.writeWord p.byteOrder addr.toNat (toPattern value))
        else .error .dataValueOutOfRange
      else .error .badDataAddress
    | _, _ => .error .badDataLine
  | _ => .error .badDataLine

/-- The lines of the data segment in order, so that a later line for an address wins (40_assembler_resolver.md R112). -/
def dataLines (p : Params) : List Text → Memory → Except AsmError Memory
  | [], image => .ok image
  | l :: ls, image => do
    let image' ← dataLine p image l
    dataLines p ls image'

/-- The data image: the all-zero memory with the data segment applied (40_assembler_resolver.md R112, R116). -/
def dataImage (p : Params) (dataText : Text) : Except AsmError Memory := dataLines p (splitLines dataText) []

/-- `Reset`: `clear(START_ADDRESS)` (70_reset_and_hazards.md R200, R201). -/
def hostReset (s : State) : State := s.clear s.params.startAddress

/-- `Load(dataText, programText)`: the new core state, or the first error. The program comes before the data, and a success ends
with a Reset (40_assembler_resolver.md R90, R111, R116; 70_reset_and_hazards.md R202). -/
def load (dataText programText : Text) (s : State) : Except AsmError State := do
  let program ← assembleProgram programText
  let image ← dataImage s.params dataText
  .ok (hostReset { s with imem := program.map encode, dmem := image })

/-- What the host may do between steps (70_reset_and_hazards.md R208). -/
inductive HostAction where
  | load (dataText programText : Text)
  | reset
  | step
deriving DecidableEq, Repr

/-- What the host gets back (70_reset_and_hazards.md R208). -/
inductive HostReply where
  /-- Load or Reset succeeded. -/
  | done
  /-- Load failed with this error and its one message (40_assembler_resolver.md R90, R110). -/
  | loadError (e : AsmError) (message : Text)
  /-- The step completed and emitted this record. -/
  | stepped (r : ResultRecord)
  /-- The step raised this fault, or the core stands in it. -/
  | faulted (f : Fault)
  /-- No step: the core is halted. -/
  | halted
  /-- No step: no program is installed. -/
  | noProgram
deriving DecidableEq, Repr

/-- A host action between steps: the core's state after it, and the reply. A failed Load changes nothing
(40_assembler_resolver.md R111); where no step is enabled nothing changes (10_state.md R28). -/
def perform (act : HostAction) (s : State) : State × HostReply :=
  match act with
  | .load dataText programText =>
    match load dataText programText s with
    | .ok t => (t, .done)
    | .error e => (s, .loadError e (e.message dataText programText))
  | .reset => (hostReset s, .done)
  | .step =>
    match step s with
    | .fault f => (s, .faulted f)
    | .refused .halted => (s, .halted)
    | .refused _ => (s, .noProgram)
    | .next t =>
      match t.fault, stepRecord s with
      | some f, _ => (t, .faulted f)
      | none, some r => (t, .stepped r)
      | none, none => (t, .done)

end Sys2Proof.Machine
end

