-- ==== Sys2Proof/Safety.lean ====
section
/-! DEFINITION. The terms claims use: what a run's end and a stopped run are, what an instruction leaves unchanged, what the words of
a format are, and the invariant of the core. -/

namespace Sys2Proof

open Machine

/-- The end of a run: the `halted` latch is set (spec/00_scope.md R14). -/
abbrev Machine.State.finished (s : State) : Prop := s.halted = true

/-- A stopped run that is not finished: the `fault` latch is set (60_exceptions.md R184). -/
abbrev Machine.State.faulted (s : State) : Prop := s.fault ≠ none

/-- Every register reads the same. -/
def SameRegs (s t : State) : Prop := ∀ r, t.readReg r = s.readReg r

/-- Every register but `a` reads the same. -/
def SameRegsBut (a : Reg) (s t : State) : Prop := ∀ r, r ≠ a → t.readReg r = s.readReg r

/-- Every byte of data memory reads the same. -/
def SameMemory (s t : State) : Prop := ∀ adr, t.dmem.readByte adr = s.dmem.readByte adr

/-- Both latches are the same. -/
def SameLatches (s t : State) : Prop := t.halted = s.halted ∧ t.fault = s.fault

/-- The installed program and the open parameters are the same. -/
def SameProgram (s t : State) : Prop := t.imem = s.imem ∧ t.params = s.params

/-- Nothing but register `a` differs; register 0 never does (10_state.md R22). -/
def OnlyRegChanges (a : Reg) (s t : State) : Prop :=
  SameRegsBut a s t ∧ t.pc = s.pc ∧ SameMemory s t ∧ SameLatches s t ∧ SameProgram s t

/-- Nothing but the pc differs. -/
def OnlyPcChanges (s t : State) : Prop :=
  SameRegs s t ∧ SameMemory s t ∧ SameLatches s t ∧ SameProgram s t

/-- `i` completes from `s` and its whole effect is `x[a] <- n` (00_scope.md R10, 10_state.md R22). -/
def CompletesWriting (i : Instr) (a : Reg) (n : Int) (s : State) : Prop :=
  ∃ t, exec i s = .next t ∧ (a ≠ .r0 → t.x a = wrap16 n) ∧ OnlyRegChanges a s t

/-- `i` completes from `s` and its whole effect is to give register `a` the pattern with these bits. -/
def CompletesWritingBits (i : Instr) (a : Reg) (bit : Nat → Bool) (s : State) : Prop :=
  ∃ t, exec i s = .next t ∧ (a ≠ .r0 → ∀ k < 16, (t.readReg a).getLsbD k = bit k) ∧ OnlyRegChanges a s t

/-- `i` completes from `s` and its whole effect is `pc <- n` (10_state.md R25). -/
def CompletesJumping (i : Instr) (n : Int) (s : State) : Prop :=
  ∃ t, exec i s = .next t ∧ (t.pc.toNat : Int) = n % 65536 ∧ OnlyPcChanges s t

/-- `i` takes the fault `f` from `s`: the latch records it and nothing else changes (60_exceptions.md R184). -/
def TakesFault (i : Instr) (f : Fault) (s : State) : Prop :=
  exec i s = .next { s with fault := some f }

/-- `i` is a DIVIDE instruction whose divisor, a register or the immediate, is 0 (60_exceptions.md R180, R181). -/
def DividesByZero (i : Instr) (s : State) : Prop :=
  (∃ a b c, (i = .div a b c ∨ i = .mod a b c) ∧ s.x c = 0) ∨ ∃ a b, i = .divi a b 0 ∨ i = .modi a b 0

/-- The words of format RRR with these fields (30_encoding.md R61). -/
def FieldsRRR (op : Nat) (a b c : Reg) (w : IWord) : Prop :=
  (w.extractLsb' 13 5).toNat = op ∧ (w.extractLsb' 10 3).toNat = a.index ∧ (w.extractLsb' 7 3).toNat = b.index ∧
    (w.extractLsb' 3 4).toNat = 0 ∧ (w.extractLsb' 0 3).toNat = c.index

/-- The words of format RRI with these fields (30_encoding.md R61, R65). -/
def FieldsRRI (op : Nat) (a b : Reg) (imm : Int) (w : IWord) : Prop :=
  (w.extractLsb' 13 5).toNat = op ∧ (w.extractLsb' 10 3).toNat = a.index ∧ (w.extractLsb' 7 3).toNat = b.index ∧
    (w.extractLsb' 0 7).toInt = imm

/-- The words of format RI7 with these fields (30_encoding.md R61, R65). -/
def FieldsRI7 (op : Nat) (a : Reg) (imm : Int) (w : IWord) : Prop :=
  (w.extractLsb' 13 5).toNat = op ∧ (w.extractLsb' 10 3).toNat = a.index ∧ (w.extractLsb' 7 3).toNat = 0 ∧
    (w.extractLsb' 0 7).toInt = imm

/-- The words of format RR with these fields (30_encoding.md R61). -/
def FieldsRR (op : Nat) (a b : Reg) (w : IWord) : Prop :=
  (w.extractLsb' 13 5).toNat = op ∧ (w.extractLsb' 10 3).toNat = a.index ∧ (w.extractLsb' 7 3).toNat = b.index ∧
    (w.extractLsb' 0 7).toNat = 0

/-- The words of format R with these fields (30_encoding.md R61). -/
def FieldsR (op : Nat) (a : Reg) (w : IWord) : Prop :=
  (w.extractLsb' 13 5).toNat = op ∧ (w.extractLsb' 10 3).toNat = a.index ∧ (w.extractLsb' 0 10).toNat = 0

/-- The words of format RI10 with these fields (30_encoding.md R61, R66). -/
def FieldsRI10 (op : Nat) (a : Reg) (imm : Int) (w : IWord) : Prop :=
  (w.extractLsb' 13 5).toNat = op ∧ (w.extractLsb' 10 3).toNat = a.index ∧ ((w.extractLsb' 0 10).toNat : Int) = imm

/-- `w` is the word of `i` (30_encoding.md R73). -/
def IsWordOf (w : IWord) (i : Instr) : Prop := decode w = .ok i ∧ encode i = w

/-- What the record in the fault latch says is true of the state (60_exceptions.md R180 to R183, R185). -/
def FaultRecorded (s : State) : Fault → Prop
  | .divideByZero a =>
    a.toNat % 2 = 0 ∧
      ∃ w i, s.imem[a.toNat / 2]? = some w ∧ decode w = .ok i ∧ functionalClass i.mnemonic = .divide
  | .invalidAddress ea => -32832 ≤ ea ∧ ea ≤ 32830 ∧ isWordAddress s.params ea = false
  | .invalidFetch a => s.pc = a ∧ (a.toNat % 2 = 1 ∨ s.imem.length ≤ a.toNat / 2)
  | .illegalInstruction w => w ∈ s.imem ∧ ∃ e, decode w = .error e

/-- The invariant of the core. -/
structure Machine.State.Inv (s : State) : Prop where
  /-- Data memory has its canonical form. -/
  memory : s.dmem.wf
  /-- Data memory lists no address beyond `DMEM_BYTES` (10_state.md R30). -/
  memoryInRange : ∀ c ∈ s.dmem, c.1 < s.params.dmemBytes
  /-- The open parameters meet their constraints (00_scope.md R7). -/
  params : s.params.wf
  /-- At most `IMEM_MAX` instructions are installed (10_state.md R29). -/
  programSize : s.imem.length ≤ imemMax
  /-- A halted core has met no fault (10_state.md R28). -/
  oneLatch : ¬ (s.finished ∧ s.faulted)
  /-- A halted core has the halt pattern in its program (44_control.md R176). -/
  haltInstalled : s.finished → 0x34000#18 ∈ s.imem
  /-- The fault latch's record is true (60_exceptions.md R180). -/
  faultRecord : ∀ f, s.fault = some f → FaultRecorded s f

/-- Every installed word encodes a well-formed instruction (30_encoding.md R74). -/
def LegalProgram (imem : List IWord) : Prop := ∀ w ∈ imem, ∃ i, decode w = .ok i ∧ i.wellFormed = true

/-- The fault latch holds no `IllegalInstruction` (60_exceptions.md R183). -/
def NoIllegalFault (s : State) : Prop := ∀ w, s.fault ≠ some (.illegalInstruction w)

/-- The state after a successful Load (70_reset_and_hazards.md R203). -/
structure Machine.State.Launch (s : State) : Prop where
  installed : 1 ≤ s.imem.length ∧ s.imem.length ≤ imemMax
  registers : ∀ r, s.x r = 0
  atStart : s.pc = s.params.startAddress
  running : s.halted = false ∧ s.fault = none
  memory : s.dmem.wf

/-- Two states that differ at most in `BYTE_ORDER` and in how the same data words lie in bytes under it (20_memory.md R41). -/
structure SameWords (s t : State) : Prop where
  regs : t.regs = s.regs
  pc : t.pc = s.pc
  halted : t.halted = s.halted
  fault : t.fault = s.fault
  imem : t.imem = s.imem
  start : t.params.startAddress = s.params.startAddress
  size : t.params.dmemBytes = s.params.dmemBytes
  wellFormed : s.dmem.wf ∧ t.dmem.wf
  words : ∀ adr : Nat, adr % 2 = 0 →
    t.dmem.readWord t.params.byteOrder adr = s.dmem.readWord s.params.byteOrder adr

end Sys2Proof
end

