-- ==== Sys2Proof/Certificates/Slice0/Obligations.lean ====
section
/-! DEFINITION. The statements for the provers. Each docstring names the rule of spec/ it formalises; "derived" says that it rests on
a decision the spec marks as its own (spec/92_eei_decisions.md) or follows from several rules. -/

open Sys2Proof Sys2Proof.Machine

/-! ### Words, registers, pc -/

/-- 00_scope.md R9: `wrap16(n)` is the one integer of [-32768, 32767] congruent to `n`. -/
def Obligations.Wrap16IsTheUniqueRepresentative : Prop :=
  ∀ n : Int, (-32768 ≤ wrap16 n ∧ wrap16 n ≤ 32767 ∧ wrap16 n % 65536 = n % 65536) ∧
    ∀ m : Int, -32768 ≤ m → m ≤ 32767 → m % 65536 = n % 65536 → m = wrap16 n

/-- 10_state.md R35: register 0 reads 0 before and after every instruction. -/
def Obligations.RegisterZeroReadsZeroAroundEveryInstruction : Prop :=
  ∀ (i : Instr) (s t : State), exec i s = .next t → s.x .r0 = 0 ∧ t.x .r0 = 0

/-- Derived, 10_state.md section 2: a register write stores `wrap16(n)` in the one register, and nothing at all in register 0. -/
def Obligations.RegisterWriteStoresWrap16 : Prop :=
  ∀ (s : State) (r : Reg) (n : Int),
    (r ≠ .r0 → (s.writeReg r n).x r = wrap16 n) ∧ (r = .r0 → s.writeReg r n = s) ∧ OnlyRegChanges r s (s.writeReg r n)

/-- Derived, 10_state.md section 3 (decision D3): the pc write is modulo 65536, so pc arithmetic wraps at both ends. -/
def Obligations.PcWriteIsModulo65536 : Prop :=
  (∀ (s : State) (n : Int), ((s.setPc n).pc.toNat : Int) = n % 65536 ∧ OnlyPcChanges s (s.setPc n)) ∧
    ∀ (s : State) (d : Int), ((s.incrementPc d).pc.toNat : Int) = ((s.pc.toNat : Int) + d) % 65536

/-! ### Encoding -/

/-- Derived, 30_encoding.md section 4 (decision D1): decoding the encoding of a well-formed instruction gives it back. -/
def Obligations.DecodeOfEncodeIsTheInstruction : Prop :=
  ∀ i : Instr, i.wellFormed = true → decode (encode i) = .ok i

/-- Derived, 30_encoding.md section 4 (decision D1): a word that decodes is the encoding of what it decodes to, which is well
formed. -/
def Obligations.EncodeOfDecodeIsTheWord : Prop :=
  ∀ (w : IWord) (i : Instr), decode w = .ok i → i.wellFormed = true ∧ encode i = w

/-- Derived, 30_encoding.md section 3 (decision D1): the decoder reads mnemonic `m` exactly from the words the opcode map's row of
`m` selects. -/
def Obligations.DecodeFollowsTheOpcodeMap : Prop :=
  ∀ (w : IWord) (m : Mnemonic), (∃ i, decode w = .ok i ∧ i.mnemonic = m) ↔ w &&& maskBits m = matchBits m

/-- Derived, 30_encoding.md section 5 (decision D20): the opcodes 28 to 31, and no others, are rejected as reserved. -/
def Obligations.ReservedOpcodesAreRejected : Prop :=
  ∀ w : IWord, decode w = .error .reservedOpcode ↔ 28 ≤ (w.extractLsb' 13 5).toNat

/-- Derived, 95_test_vectors.md section 2.1 and 41_alu.md to 44_control.md: words written out from the spec's encodings, one or more
for each family, and six illegal words. -/
def Obligations.SampleWordsDecode : Prop :=
  decode 0b000000010100000011 = .ok (.add .r1 .r2 .r3) ∧ decode 0b000010100001000000 = .ok (.addi .r2 .r0 (-64)) ∧
  decode 0b001000010100000011 = .ok (.and .r1 .r2 .r3) ∧ decode 0b110111111111111111 = .ok (.lui .r7 0x3FF) ∧
  decode 0b010100010100000011 = .ok (.mul .r1 .r2 .r3) ∧ decode 0b011110010101111110 = .ok (.modi .r1 .r2 (-2)) ∧
  decode 0b100000110100000010 = .ok (.lw .r3 .r2 2) ∧ decode 0b100010110100111111 = .ok (.sw .r3 .r2 63) ∧
  decode 0b101111101010111111 = .ok (.ble .r6 .r5 63) ∧ decode 0b110000110001000000 = .ok (.jmp .r3 (-64)) ∧
  decode 0b110011110000000000 = .ok (.ret .r7) ∧ decode 0b110101111000000000 = .ok (.jalr .r7 .r4) ∧
  decode 0x38000 = .error .reservedOpcode ∧ decode 0x3FFFF = .error .reservedOpcode ∧
  decode 0x00008 = .error .mustBeZero ∧ decode 0x30080 = .error .mustBeZero ∧
  decode 0x34001 = .error .mustBeZero ∧ decode 0x32200 = .error .mustBeZero

/-! ### The step -/

/-- Derived, 30_encoding.md section 6 (decision D4): where a step is enabled and the word at the pc decodes to `i`, the step is `exec i`
on the state whose pc has advanced by 2. -/
def Obligations.StepRunsTheDecodedInstruction : Prop :=
  ∀ (s : State) (w : IWord) (i : Instr),
    s.halted = false → s.fault = none → s.pc.toNat % 2 = 0 → s.imem[s.pc.toNat / 2]? = some w → decode w = .ok i →
      step s = exec i { s with pc := s.pc + 2 }

/-- Derived, 30_encoding.md R81 and 60_exceptions.md R185 (decision D5): a fetch at an odd pc, or beyond the program, records
`InvalidFetch(pc)` and changes nothing else. -/
def Obligations.StepAtAnAddressWithoutInstructionFaults : Prop :=
  ∀ s : State, s.imem ≠ [] → s.halted = false → s.fault = none →
    (s.pc.toNat % 2 = 1 ∨ s.imem.length ≤ s.pc.toNat / 2) →
      step s = .next { s with fault := some (.invalidFetch s.pc) }

/-- Derived, 60_exceptions.md R183 (decision D20): an illegal word at the pc records `IllegalInstruction(w)` after the fetch-advance
and changes nothing else. -/
def Obligations.StepOnAnIllegalWordFaults : Prop :=
  ∀ (s : State) (w : IWord) (e : DecodeError),
    s.halted = false → s.fault = none → s.pc.toNat % 2 = 0 → s.imem[s.pc.toNat / 2]? = some w → decode w = .error e →
      step s = .next { s with pc := s.pc + 2, fault := some (.illegalInstruction w) }

/-- Derived, 10_state.md R28 and 70_reset_and_hazards.md R203 (decisions D6, D7): before the first Load, in the halted state and in a
faulted state there is no next state; the outcome's form is the model's choice (log entry 1). -/
def Obligations.NoStepIsEnabledWhenStopped : Prop :=
  ∀ s : State, (s.imem = [] → step s = .refused .noProgram) ∧
    (s.imem ≠ [] → s.halted = true → step s = .refused .halted) ∧
    ∀ f, s.imem ≠ [] → s.halted = false → s.fault = some f → step s = .fault f

/-- Derived, 30_encoding.md R80 and 60_exceptions.md R184: with a step enabled nothing in the core blocks or refuses. That a step which
faults counts as a next state, the one with the latch set, is the model's DESIGN CHOICE (log entry 1); 00_scope.md R14 lists a fault
as an outcome beside the next state. -/
def Obligations.EveryEnabledStepAnswersANextState : Prop :=
  ∀ s : State, s.imem ≠ [] → s.halted = false → s.fault = none → ∃ t, step s = .next t

/-! ### ALU -/

/-- 41_alu.md R120, R121. -/
def Obligations.AddWritesTheWrappedSum : Prop :=
  (∀ a b c w, FieldsRRR 0 a b c w → IsWordOf w (.add a b c)) ∧
  (∀ a b c s, CompletesWriting (.add a b c) a (s.x b + s.x c) s) ∧
  (∀ a b imm w, FieldsRRI 1 a b imm w → IsWordOf w (.addi a b imm)) ∧
  ∀ a b imm s, CompletesWriting (.addi a b imm) a (s.x b + imm) s

/-- 41_alu.md R122, R123. -/
def Obligations.SubWritesTheWrappedDifference : Prop :=
  (∀ a b c w, FieldsRRR 2 a b c w → IsWordOf w (.sub a b c)) ∧
  (∀ a b c s, CompletesWriting (.sub a b c) a (s.x b - s.x c) s) ∧
  (∀ a b imm w, FieldsRRI 3 a b imm w → IsWordOf w (.subi a b imm)) ∧
  ∀ a b imm s, CompletesWriting (.subi a b imm) a (s.x b - imm) s

/-- 41_alu.md R124, R125: bit `k` of the result is 1 exactly when bit `k` of both patterns is. -/
def Obligations.AndWritesTheBitwiseConjunction : Prop :=
  (∀ a b c w, FieldsRRR 4 a b c w → IsWordOf w (.and a b c)) ∧
  (∀ a b c s, CompletesWritingBits (.and a b c) a (fun k => (s.readReg b).getLsbD k && (s.readReg c).getLsbD k) s) ∧
  (∀ a b imm w, FieldsRRI 5 a b imm w → IsWordOf w (.andi a b imm)) ∧
  ∀ a b imm s, CompletesWritingBits (.andi a b imm) a (fun k => (s.readReg b).getLsbD k && (toPattern imm).getLsbD k) s

/-- 41_alu.md R126, R127: bit `k` of the result is 1 exactly when bit `k` of either pattern is. -/
def Obligations.OrWritesTheBitwiseDisjunction : Prop :=
  (∀ a b c w, FieldsRRR 6 a b c w → IsWordOf w (.or a b c)) ∧
  (∀ a b c s, CompletesWritingBits (.or a b c) a (fun k => (s.readReg b).getLsbD k || (s.readReg c).getLsbD k) s) ∧
  (∀ a b imm w, FieldsRRI 7 a b imm w → IsWordOf w (.ori a b imm)) ∧
  ∀ a b imm s, CompletesWritingBits (.ori a b imm) a (fun k => (s.readReg b).getLsbD k || (toPattern imm).getLsbD k) s

/-- 41_alu.md R128, R129: the bitwise complements of and and or. -/
def Obligations.NandAndNorWriteTheComplements : Prop :=
  (∀ a b c w, FieldsRRR 8 a b c w → IsWordOf w (.nand a b c)) ∧
  (∀ a b c s, CompletesWritingBits (.nand a b c) a (fun k => !((s.readReg b).getLsbD k && (s.readReg c).getLsbD k)) s) ∧
  (∀ a b c w, FieldsRRR 9 a b c w → IsWordOf w (.nor a b c)) ∧
  ∀ a b c s, CompletesWritingBits (.nor a b c) a (fun k => !((s.readReg b).getLsbD k || (s.readReg c).getLsbD k)) s

/-- Derived, 41_alu.md section 4 (decision D8): `lui` writes `imm × 64`, which for an immediate in its window is the 10 bits of the
immediate above six zeros. -/
def Obligations.LuiWritesTheShiftedImmediate : Prop :=
  (∀ a imm w, FieldsRI10 27 a imm w → IsWordOf w (.lui a imm)) ∧
  (∀ a imm s, CompletesWriting (.lui a imm) a (imm * 64) s) ∧
  ∀ a imm s, 0 ≤ imm → imm ≤ 0x3FF →
    CompletesWritingBits (.lui a imm) a (fun k => decide (6 ≤ k) && imm.toNat.testBit (k - 6)) s

/-! ### Multiply, divide, modulo -/

/-- 42_muldiv.md R141, R142. -/
def Obligations.MulWritesTheWrappedProduct : Prop :=
  (∀ a b c w, FieldsRRR 10 a b c w → IsWordOf w (.mul a b c)) ∧
  (∀ a b c s, CompletesWriting (.mul a b c) a (s.x b * s.x c) s) ∧
  (∀ a b imm w, FieldsRRI 11 a b imm w → IsWordOf w (.muli a b imm)) ∧
  ∀ a b imm s, CompletesWriting (.muli a b imm) a (s.x b * imm) s

/-- Derived, 42_muldiv.md section 3 (decision D9, the rounding): with a divisor that is not 0 the quotient is written; with a divisor 0
the fault is taken. -/
def Obligations.DivWritesTheQuotient : Prop :=
  (∀ a b c w, FieldsRRR 12 a b c w → IsWordOf w (.div a b c)) ∧
  (∀ a b c s, s.x c ≠ 0 → CompletesWriting (.div a b c) a (tdiv (s.x b) (s.x c)) s) ∧
  (∀ a b c s, s.x c = 0 → TakesFault (.div a b c) (.divideByZero (s.pc - 2)) s) ∧
  (∀ a b imm w, FieldsRRI 13 a b imm w → IsWordOf w (.divi a b imm)) ∧
  (∀ a b imm s, imm ≠ 0 → CompletesWriting (.divi a b imm) a (tdiv (s.x b) imm) s) ∧
  ∀ a b s, TakesFault (.divi a b 0) (.divideByZero (s.pc - 2)) s

/-- Derived, 42_muldiv.md section 3 (decision D9, the rounding): with a divisor that is not 0 the remainder is written; with a divisor 0
the fault is taken. -/
def Obligations.ModWritesTheRemainder : Prop :=
  (∀ a b c w, FieldsRRR 14 a b c w → IsWordOf w (.mod a b c)) ∧
  (∀ a b c s, s.x c ≠ 0 → CompletesWriting (.mod a b c) a (tmod (s.x b) (s.x c)) s) ∧
  (∀ a b c s, s.x c = 0 → TakesFault (.mod a b c) (.divideByZero (s.pc - 2)) s) ∧
  (∀ a b imm w, FieldsRRI 15 a b imm w → IsWordOf w (.modi a b imm)) ∧
  (∀ a b imm s, imm ≠ 0 → CompletesWriting (.modi a b imm) a (tmod (s.x b) imm) s) ∧
  ∀ a b s, TakesFault (.modi a b 0) (.divideByZero (s.pc - 2)) s

/-- Derived, 42_muldiv.md section 1 (decision D9): the quotient is rounded toward zero, the remainder completes it, is smaller than the
divisor and has the dividend's sign; the one quotient that does not fit wraps. -/
def Obligations.DivisionTruncatesTowardZero : Prop :=
  (∀ m n : Int, n ≠ 0 →
    m = n * tdiv m n + tmod m n ∧ (n * tdiv m n).natAbs ≤ m.natAbs ∧ (tmod m n).natAbs < n.natAbs ∧
      (tmod m n = 0 ∨ (tmod m n < 0 ↔ m < 0))) ∧
  wrap16 (tdiv (-32768) (-1)) = -32768

/-- 60_exceptions.md R181: the four DIVIDE instructions, on a divisor 0, leave registers and memory, advance the pc and record
`DivideByZero(A)`. -/
def Obligations.DivideByZeroStepRecordsTheAddress : Prop :=
  ∀ (s : State) (w : IWord) (i : Instr),
    s.halted = false → s.fault = none → s.pc.toNat % 2 = 0 → s.imem[s.pc.toNat / 2]? = some w → decode w = .ok i →
      ((∃ a b c, (i = .div a b c ∨ i = .mod a b c) ∧ s.x c = 0) ∨ ∃ a b, i = .divi a b 0 ∨ i = .modi a b 0) →
        step s = .next { s with pc := s.pc + 2, fault := some (.divideByZero s.pc) }

/-! ### Memory -/

/-- 43_memory_ops.md R150. -/
def Obligations.LoadWordReadsOrFaults : Prop :=
  (∀ a b imm w, FieldsRRI 16 a b imm w → IsWordOf w (.lw a b imm)) ∧
  (∀ a b imm s, isWordAddress s.params (s.x b + imm) = true →
    CompletesWriting (.lw a b imm) a (s.memRead (s.x b + imm)) s) ∧
  (∀ a b imm s, isWordAddress s.params (s.x b + imm) = false →
    TakesFault (.lw a b imm) (.invalidAddress (s.x b + imm)) s) ∧
  ∀ a b imm s t, resultRecord (.lw a b imm) s t = ⟨.load, some a, .addr (s.x b + imm)⟩

/-- 43_memory_ops.md R151: the two bytes from the effective address on hold the word stored, every other byte reads as before. -/
def Obligations.StoreWordWritesOneWordOrFaults : Prop :=
  (∀ a b imm w, FieldsRRI 17 a b imm w → IsWordOf w (.sw a b imm)) ∧
  (∀ a b imm s, isWordAddress s.params (s.x b + imm) = true →
    ∃ t, exec (.sw a b imm) s = .next t ∧ (s.dmem.wf → t.memRead (s.x b + imm) = s.x a) ∧
      (∀ adr : Nat, (adr : Int) ≠ s.x b + imm → (adr : Int) ≠ s.x b + imm + 1 →
        t.dmem.readByte adr = s.dmem.readByte adr) ∧
      SameRegs s t ∧ t.pc = s.pc ∧ SameLatches s t ∧ SameProgram s t) ∧
  (∀ a b imm s, isWordAddress s.params (s.x b + imm) = false →
    TakesFault (.sw a b imm) (.invalidAddress (s.x b + imm)) s) ∧
  ∀ a b imm s t, resultRecord (.sw a b imm) s t = ⟨.store, none, .addr (s.x b + imm)⟩

/-- Derived, 20_memory.md section 3 (decisions D10, D11): the valid word addresses are exactly the even ones in [0, `DMEM_BYTES`), and
the effective address is not wrapped, so a negative, a too large or an odd sum faults. -/
def Obligations.MisalignedOrOutOfRangeAddressesFault : Prop :=
  (∀ (p : Params) (ea : Int), isWordAddress p ea = true ↔ 0 ≤ ea ∧ ea < p.dmemBytes ∧ ea % 2 = 0) ∧
  ∀ (s : State) (a b : Reg) (imm : Int),
    (s.x b + imm < 0 ∨ (s.params.dmemBytes : Int) ≤ s.x b + imm ∨ (s.x b + imm) % 2 = 1) →
      TakesFault (.lw a b imm) (.invalidAddress (s.x b + imm)) s ∧
      TakesFault (.sw a b imm) (.invalidAddress (s.x b + imm)) s

/-- 60_exceptions.md R182: `lw` and `sw`, on an effective address that is no valid word address, leave registers and memory, advance
the pc and record `InvalidAddress(EA)`. -/
def Obligations.InvalidAddressStepRecordsTheAddress : Prop :=
  ∀ (s : State) (w : IWord) (a b : Reg) (imm : Int),
    s.halted = false → s.fault = none → s.pc.toNat % 2 = 0 → s.imem[s.pc.toNat / 2]? = some w →
      (decode w = .ok (.lw a b imm) ∨ decode w = .ok (.sw a b imm)) → isWordAddress s.params (s.x b + imm) = false →
        step s = .next { s with pc := s.pc + 2, fault := some (.invalidAddress (s.x b + imm)) }

/-- Derived, 20_memory.md section 4: a load after a store to the same word gives the value stored, through any registers and whatever
the byte order. -/
def Obligations.LoadAfterStoreGivesTheStoredValue : Prop :=
  ∀ (s t : State) (a b d e : Reg) (imm off : Int), s.dmem.wf →
    isWordAddress s.params (s.x b + imm) = true → exec (.sw a b imm) s = .next t → t.x e + off = s.x b + imm →
      CompletesWriting (.lw d e off) d (s.x a) t

/-! ### Control transfer -/

/-- 44_control.md R161, R162. -/
def Obligations.BeqAndBneBranchOnEquality : Prop :=
  (∀ a b imm w, FieldsRRI 18 a b imm w → IsWordOf w (.beq a b imm)) ∧
  (∀ a b imm s, CompletesJumping (.beq a b imm) (s.pc.toNat + if s.x a = s.x b then imm else 0) s) ∧
  (∀ a b imm w, FieldsRRI 19 a b imm w → IsWordOf w (.bne a b imm)) ∧
  ∀ a b imm s, CompletesJumping (.bne a b imm) (s.pc.toNat + if s.x a ≠ s.x b then imm else 0) s

/-- 44_control.md R163, R164. -/
def Obligations.BgtAndBltBranchOnStrictOrder : Prop :=
  (∀ a b imm w, FieldsRRI 20 a b imm w → IsWordOf w (.bgt a b imm)) ∧
  (∀ a b imm s, CompletesJumping (.bgt a b imm) (s.pc.toNat + if s.x a > s.x b then imm else 0) s) ∧
  (∀ a b imm w, FieldsRRI 21 a b imm w → IsWordOf w (.blt a b imm)) ∧
  ∀ a b imm s, CompletesJumping (.blt a b imm) (s.pc.toNat + if s.x a < s.x b then imm else 0) s

/-- 44_control.md R165, R166. -/
def Obligations.BgeAndBleBranchOnWeakOrder : Prop :=
  (∀ a b imm w, FieldsRRI 22 a b imm w → IsWordOf w (.bge a b imm)) ∧
  (∀ a b imm s, CompletesJumping (.bge a b imm) (s.pc.toNat + if s.x a ≥ s.x b then imm else 0) s) ∧
  (∀ a b imm w, FieldsRRI 23 a b imm w → IsWordOf w (.ble a b imm)) ∧
  ∀ a b imm s, CompletesJumping (.ble a b imm) (s.pc.toNat + if s.x a ≤ s.x b then imm else 0) s

/-- 44_control.md R170. -/
def Obligations.JmpAddsRegisterAndOffset : Prop :=
  (∀ a imm w, FieldsRI7 24 a imm w → IsWordOf w (.jmp a imm)) ∧
  (∀ a imm s, CompletesJumping (.jmp a imm) (s.pc.toNat + s.x a + imm) s) ∧
  ∀ a imm s t, resultRecord (.jmp a imm) s t = ⟨.jump, none, .pc t.pc⟩

/-- Derived, 44_control.md section 3 (decision D24): `ret` gives the pc the register's pattern; `ret r0` jumps to 0 and does not
halt. -/
def Obligations.RetJumpsToTheRegister : Prop :=
  (∀ a w, FieldsR 25 a w → IsWordOf w (.ret a)) ∧
  ∀ a s, CompletesJumping (.ret a) (s.x a) s ∧ ∃ t, exec (.ret a) s = .next t ∧ t.pc = s.readReg a

/-- Derived, 44_control.md section 3 (decisions D14, D24): `jalr`, but for the halt pattern, writes the link and then reads the target,
so that with one register in both places it does not jump. -/
def Obligations.JalrLinksThenJumps : Prop :=
  (∀ a b w, FieldsRR 26 a b w → IsWordOf w (.jalr a b)) ∧
  ∀ a b s, ¬ (a = .r0 ∧ b = .r0) →
    ∃ t, exec (.jalr a b) s = .next t ∧ (a ≠ .r0 → t.x a = wrap16 s.pc.toNat) ∧ SameRegsBut a s t ∧
      t.pc = (if a = b then s.pc else s.readReg b) ∧ SameMemory s t ∧ SameLatches s t ∧ SameProgram s t

/-- Derived, 44_control.md section 4 (decision D6): the halt pattern sets the `halted` latch and leaves registers, memory, the fault
latch and the program. Of the pc it says nothing (93_implementation_defined.md U6). -/
def Obligations.HaltPatternSetsTheLatch : Prop :=
  IsWordOf 0x34000#18 (.jalr .r0 .r0) ∧
  ∀ s, ∃ t, exec (.jalr .r0 .r0) s = .next t ∧ t.halted = true ∧ SameRegs s t ∧ SameMemory s t ∧ t.fault = s.fault ∧
    SameProgram s t

/-- Derived, 44_control.md section 4 (decision D6): no step but the one on the word 0x34000 sets the `halted` latch. -/
def Obligations.OnlyTheHaltPatternHalts : Prop :=
  ∀ s t : State, step s = .next t → (t.halted = true ↔ s.pc.toNat % 2 = 0 ∧ s.imem[s.pc.toNat / 2]? = some 0x34000#18)

/-- Derived, 44_control.md R173 and decision D24: a call through `jalr` and a `ret` through the link come back to the instruction after
the call, wherever it stands. -/
def Obligations.RetReturnsToTheInstructionAfterTheCall : Prop :=
  ∀ (s t : State) (link target : Reg), link ≠ .r0 → exec (.jalr link target) s = .next t →
    ∃ u, exec (.ret link) t = .next u ∧ u.pc = s.pc ∧ SameRegs t u

/-! ### Rules about all instructions -/

/-- Derived, 20_memory.md R52, R53: no instruction but `sw` changes a byte of data memory. -/
def Obligations.OnlySwChangesMemory : Prop :=
  ∀ (i : Instr) (s t : State), i.mnemonic ≠ .sw → exec i s = .next t → t.dmem = s.dmem

/-- Derived, 10_state.md R26 (decision D4): past the fetch-advance only the nine control-transfer instructions change the pc. -/
def Obligations.OnlyControlTransfersChangeThePc : Prop :=
  ∀ (i : Instr) (s t : State),
    functionalClass i.mnemonic ∉ [FunctionalClass.branch, .jump, .ret, .jumpAndLink] → exec i s = .next t → t.pc = s.pc

/-- Derived, 10_state.md section 2 and the rules of 41_alu.md to 44_control.md: an instruction writes no register but its destination,
which stores, branches, `jmp` and `ret` do not have. -/
def Obligations.OnlyTheDestinationRegisterChanges : Prop :=
  ∀ (i : Instr) (s t : State) (r : Reg), exec i s = .next t → recordDest i ≠ some r → t.readReg r = s.readReg r

/-- Derived, 60_exceptions.md section 1: an instruction records a fault only as a DIVIDE instruction whose divisor is 0 or as a memory
instruction whose effective address is no valid word address, and then it has changed nothing else. -/
def Obligations.OnlyDivideAndMemoryInstructionsFault : Prop :=
  ∀ (i : Instr) (s t : State) (f : Fault), s.fault = none → exec i s = .next t → t.fault = some f →
    t = { s with fault := some f } ∧
      ((functionalClass i.mnemonic = .divide ∧ DividesByZero i s ∧ f = .divideByZero (s.pc - 2)) ∨
        ∃ ea, touchedAddress i s = some ea ∧ isWordAddress s.params ea = false ∧ f = .invalidAddress ea)

/-- Derived, 20_memory.md R53 (decisions D2, D18): no step changes the installed program or a parameter, so a store never changes what
a later fetch returns. -/
def Obligations.NoStepChangesTheProgram : Prop :=
  ∀ s t : State, step s = .next t → SameProgram s t

/-- Derived, 30_encoding.md section 6 (decisions D21, D26): a step that completes emits the record of its instruction's class, and a
step that faults emits none. -/
def Obligations.StepEmitsTheRecordOfItsClass : Prop :=
  ∀ (s t : State), step s = .next t →
    (t.fault ≠ none → stepRecord s = none) ∧
    (t.fault = none → ∃ w i r, s.imem[s.pc.toNat / 2]? = some w ∧ decode w = .ok i ∧ stepRecord s = some r ∧
      r.tag = functionalClass i.mnemonic ∧
      (∀ a b imm, i = .lw a b imm → r.dest = some a ∧ r.info = .addr (s.x b + imm)) ∧
      (∀ a b imm, i = .sw a b imm → r.dest = none ∧ r.info = .addr (s.x b + imm)) ∧
      (functionalClass i.mnemonic ∉ [FunctionalClass.load, .store] → r.info = .pc t.pc) ∧
      (functionalClass i.mnemonic ∈ [FunctionalClass.branch, .jump, .ret] → r.dest = none) ∧
      (functionalClass i.mnemonic ∈ [FunctionalClass.alu, .multiply, .divide, .jumpAndLink] →
        ∃ a, i.operands.head? = some (.reg a) ∧ r.dest = some a))

/-! ### Invariants -/

/-- Derived, 10_state.md R33: the reset state meets the invariant. Its parameter values are the spec's default and the model's choices
(log entries 3, 4, 5). -/
def Obligations.ResetMeetsTheInvariant : Prop := State.reset.Inv

/-- Derived, 10_state.md section 8: after Reset every register is 0, the pc is `START_ADDRESS`, the latches are clear and both memories
are as before; before the first Load no step is enabled. -/
def Obligations.ResetValues : Prop :=
  (∀ s : State, (∀ r, (hostReset s).x r = 0) ∧ (hostReset s).pc = s.params.startAddress ∧ (hostReset s).halted = false ∧
    (hostReset s).fault = none ∧ SameProgram s (hostReset s) ∧ SameMemory s (hostReset s)) ∧
  hostReset State.reset = State.reset ∧ step State.reset = .refused .noProgram

/-- Derived, 10_state.md, 20_memory.md, 60_exceptions.md: every step keeps the invariant: the memory's canonical form and range, the
parameters, the program's size, the two latches' meaning, and the truth of the fault record. -/
def Obligations.EveryStepKeepsTheInvariant : Prop :=
  ∀ s t : State, s.Inv → step s = .next t → t.Inv

/-- Derived, 70_reset_and_hazards.md section 5: every action of the host, Load, Reset or Step, keeps the invariant. -/
def Obligations.EveryHostActionKeepsTheInvariant : Prop :=
  ∀ (act : HostAction) (s : State), s.Inv → (perform act s).1.Inv

/-- Derived, 20_memory.md section 2 (decision D12): no instruction observes `BYTE_ORDER`: two states that hold the same words under
whatever orders step alike, and go on holding the same words. -/
def Obligations.ByteOrderIsNotObservable : Prop :=
  ∀ s t : State, SameWords s t →
    (∀ s', step s = .next s' → ∃ t', step t = .next t' ∧ SameWords s' t') ∧
    (∀ f, step s = .fault f → step t = .fault f) ∧ ∀ q, step s = .refused q → step t = .refused q

/-! ### The assembler, the resolver, Load -/

/-- Derived, 40_assembler_resolver.md section 5: the offset is computed with no wrap and range-checked; a label at instruction index `k`
resolves, for the instruction at index `j`, to `2k - 2j - 2`, which fails exactly outside the window (the labels from `j - 31` to
`j + 32` are in it) or where the label is undefined. -/
def Obligations.ResolveGivesTheOffsetOrFails : Prop :=
  (∀ b t : Int, resolve b t =
    if -64 ≤ t - (b + 2) ∧ t - (b + 2) ≤ 63 then .ok (t - (b + 2)) else .error .branchOutOfRange) ∧
  (∀ (labels : List (Text × Nat)) (name : Text) (j k : Nat), labels.lookup name = some (2 * k) →
    fixupOperand labels j (.label name) =
      if (j : Int) - 31 ≤ k ∧ (k : Int) ≤ j + 32 then .ok (.imm (2 * k - 2 * j - 2)) else .error .branchOutOfRange) ∧
  ∀ (labels : List (Text × Nat)) (name : Text) (j : Nat), labels.lookup name = none →
    fixupOperand labels j (.label name) = .error .undefinedLabel

/-- Derived, 40_assembler_resolver.md R106 and 44_control.md R160, R170: each of the six branches, when its condition holds, lands on the
target its offset was resolved for, and `jmp` lands at the target plus its register, whatever the two addresses. -/
def Obligations.ResolvedBranchLandsOnItsTarget : Prop :=
  ∀ (s : State) (branchAddr target : Nat) (off : Int) (a b : Reg), resolve branchAddr target = .ok off →
    (s.pc.toNat : Int) = ((branchAddr : Int) + 2) % 65536 →
      (s.x a = s.x b → CompletesJumping (.beq a b off) target s) ∧
      (s.x a ≠ s.x b → CompletesJumping (.bne a b off) target s) ∧
      (s.x a > s.x b → CompletesJumping (.bgt a b off) target s) ∧
      (s.x a < s.x b → CompletesJumping (.blt a b off) target s) ∧
      (s.x a ≥ s.x b → CompletesJumping (.bge a b off) target s) ∧
      (s.x a ≤ s.x b → CompletesJumping (.ble a b off) target s) ∧
      CompletesJumping (.jmp a off) (target + s.x a) s

/-- Derived, 40_assembler_resolver.md R97 and R98, and R96 for the error of a wrong number of operands. -/
def Obligations.NopAndHaltExpansions : Prop :=
  assembleProgram "nop".toList = .ok [.add .r0 .r0 .r0] ∧ encode (.add .r0 .r0 .r0) = 0x00000#18 ∧
  (∀ s, exec (.add .r0 .r0 .r0) s = .next s) ∧
  assembleProgram "halt".toList = .ok [.jalr .r0 .r0] ∧ encode (.jalr .r0 .r0) = 0x34000#18 ∧
  ∀ operands, operands ≠ [] → expand "nop".toList operands = .error .arityMismatch ∧
    expand "halt".toList operands = .error .arityMismatch

/-- Derived, 40_assembler_resolver.md R96, R99 and R100 (decisions D8, D19, D30): `movi` and `lli` of a register and a literal in range
expand to `lui` and `addi`, and to `addi` alone, lines the real-instruction parse accepts; another number, or a token that is no
literal, is refused by name. The pair of `movi` leaves `wrap16(imm)` in the register, whatever it held; the `addi` of `lli` adds the low
six bits. -/
def Obligations.MoviAndLliExpandAndAct : Prop :=
  (∀ (rd tok : Text) (a : Reg) (imm : Int), lookupRegister rd = some a → parseLiteral tok = some imm →
    (0 ≤ imm ∧ imm ≤ 0xFFFF → ∃ lines, expand "movi".toList [rd, tok] = .ok lines ∧
      parseReals lines = .ok [⟨.lui, [.reg a, .imm (imm / 64)]⟩, ⟨.addi, [.reg a, .reg a, .imm (imm % 64)]⟩]) ∧
    (-32768 ≤ imm ∧ imm ≤ 65535 → ∃ lines, expand "lli".toList [rd, tok] = .ok lines ∧
      parseReals lines = .ok [⟨.addi, [.reg a, .reg a, .imm (imm % 64)]⟩])) ∧
  (∀ (rd tok : Text) (imm : Int), parseLiteral tok = some imm →
    (¬ (0 ≤ imm ∧ imm ≤ 0xFFFF) → expand "movi".toList [rd, tok] = .error .immediateOutOfRange) ∧
    (¬ (-32768 ≤ imm ∧ imm ≤ 65535) → expand "lli".toList [rd, tok] = .error .immediateOutOfRange)) ∧
  (∀ rd tok : Text, parseLiteral tok = none →
    expand "movi".toList [rd, tok] = .error .badLiteral ∧ expand "lli".toList [rd, tok] = .error .badLiteral) ∧
  (∀ (s : State) (a : Reg) (imm : Int), 0 ≤ imm → imm ≤ 0xFFFF →
    immInRange .lui (imm / 64) = true ∧ immInRange .addi (imm % 64) = true ∧
    ∃ t u, exec (.lui a (imm / 64)) s = .next t ∧ exec (.addi a a (imm % 64)) t = .next u ∧
      (a ≠ .r0 → u.x a = wrap16 imm) ∧ OnlyRegChanges a s u) ∧
  ∀ (s : State) (a : Reg) (imm : Int), immInRange .addi (imm % 64) = true ∧
    CompletesWriting (.addi a a (imm % 64)) a (s.x a + imm % 64) s

/-- Derived, 40_assembler_resolver.md section 4 and 95_test_vectors.md S2: an Immediate slot takes a literal exactly when it is in its
window, and a token that is no literal only as a label of a branch or `jmp`. -/
def Obligations.ImmediateSlotIsRangeChecked : Prop :=
  (∀ (m : Mnemonic) (t : Text) (n : Int), parseLiteral t = some n →
    (bindImmediate m (.text t) = .ok (.imm n) ↔
      (m = .lui ∧ 0 ≤ n ∧ n ≤ 0x3FF) ∨ (m ≠ .lui ∧ -64 ≤ n ∧ n ≤ 63))) ∧
  ∀ (m : Mnemonic) (t : Text), parseLiteral t = none →
    bindImmediate m (.text t) =
      if functionalClass m ∈ [FunctionalClass.branch, .jump] then .ok (.label t) else .error .badLiteral

/-- Derived, 40_assembler_resolver.md section 6 (decision D31): a data line that is accepted is blank and writes nothing, or writes its
value to the word at its address and nothing else. -/
def Obligations.DataLineWritesOneWord : Prop :=
  ∀ (p : Params) (image image' : Memory) (line : Text), image.wf → dataLine p image line = .ok image' →
    image'.wf ∧
      ((splitWords line = [] ∧ image' = image) ∨
        ∃ (addrText valueText : Text) (addr value : Int), splitWords line = [addrText, valueText] ∧
          parseLiteral addrText = some addr ∧ parseLiteral valueText = some value ∧ isWordAddress p addr = true ∧
          -32768 ≤ value ∧ value ≤ 32767 ∧ (image'.readWord p.byteOrder addr.toNat).toInt = value ∧
          ∀ adr : Nat, (adr : Int) ≠ addr → (adr : Int) ≠ addr + 1 → image'.readByte adr = image.readByte adr)

/-- Derived, 40_assembler_resolver.md R108 and 60_exceptions.md R183: every word a successful Load installs is the encoding of a
well-formed instruction. -/
def Obligations.LoadInstallsOnlyLegalWords : Prop :=
  ∀ (dataText programText : Text) (s t : State), load dataText programText s = .ok t → LegalProgram t.imem

/-- Derived, 60_exceptions.md R183: a legal program never raises `IllegalInstruction`. -/
def Obligations.LegalProgramsNeverFaultInDecode : Prop :=
  ∀ s t : State, LegalProgram s.imem → NoIllegalFault s → step s = .next t → LegalProgram t.imem ∧ NoIllegalFault t

/-- Derived, 70_reset_and_hazards.md R202, R203 and 40_assembler_resolver.md R90 (decisions D13, D18, D25): Load succeeds exactly when
both texts assemble, and the state after it is the launch state: the instruction store is the encoded program, data memory is the
data image, in which a byte is 0 unless a data line names its word, and the rest is as after Reset. -/
def Obligations.LoadEndsInALaunchState : Prop :=
  (∀ (dataText programText : Text) (s t : State), load dataText programText s = .ok t →
    t.Launch ∧ t.params = s.params ∧
      ∃ program image, assembleProgram programText = .ok program ∧ dataImage s.params dataText = .ok image ∧
        t.imem = program.map encode ∧ t.dmem = image) ∧
  (∀ (dataText programText : Text) (s : State) (program : List Instr) (image : Memory),
    assembleProgram programText = .ok program → dataImage s.params dataText = .ok image →
      ∃ t, load dataText programText s = .ok t) ∧
  ∀ (p : Params) (dataText : Text) (image : Memory) (adr : Nat), dataImage p dataText = .ok image →
    (∀ line ∈ splitLines dataText, ∀ addrText valueText, splitWords line = [addrText, valueText] →
      ∀ addr : Int, parseLiteral addrText = some addr → (adr : Int) ≠ addr ∧ (adr : Int) ≠ addr + 1) →
        image.readByte adr = 0

/-- Derived, 40_assembler_resolver.md R90, R91 and R111 (decision D18): a failed Load leaves the whole state as it was, and the host gets
the error and its message, which for an empty program is the spec's. -/
def Obligations.FailedLoadChangesNothing : Prop :=
  (∀ (dataText programText : Text) (s : State) (e : AsmError), load dataText programText s = .error e →
    perform (.load dataText programText) s = (s, .loadError e (e.message dataText programText))) ∧
  ∀ (dataText programText : Text) (s : State), normalize programText = [] →
    perform (.load dataText programText) s = (s, .loadError .emptyProgram "enter one or more instructions".toList)
end

