-- ==== Sys2Proof/Laws/Fields.lean ====
section
/-! SUPPORT. The fields of packed words: what each format's packing reads back as, and the words a packing rebuilds
(spec/30_encoding.md R61, R73). -/

namespace Sys2Proof

@[simp] theorem Reg.ofBits_bits (r : Reg) : Reg.ofBits r.bits = r := by cases r <;> rfl

@[simp] theorem Reg.bits_ofBits (v : BitVec 3) : (Reg.ofBits v).bits = v := by
  revert v; decide

/-- The bits of a concatenation below its lower part. -/
theorem extractLsb'_append_low {m n : Nat} (x : BitVec m) (y : BitVec n) (lo len : Nat) (h : lo + len ≤ n) :
    (x ++ y).extractLsb' lo len = y.extractLsb' lo len := by
  apply BitVec.eq_of_getLsbD_eq
  intro i hi
  have : lo + i < n := by omega
  simp [hi, BitVec.getLsbD_append, this]

/-- The bits of a concatenation above its lower part. -/
theorem extractLsb'_append_high {m n : Nat} (x : BitVec m) (y : BitVec n) (lo len : Nat) (h : n ≤ lo) :
    (x ++ y).extractLsb' lo len = x.extractLsb' (lo - n) len := by
  apply BitVec.eq_of_getLsbD_eq
  intro i hi
  have h1 : ¬ lo + i < n := by omega
  have h2 : lo + i - n = lo - n + i := by omega
  simp [hi, BitVec.getLsbD_append, h1, h2]

/-- All the bits of a vector. -/
theorem extractLsb'_all {n : Nat} (x : BitVec n) : x.extractLsb' 0 n = x := by
  apply BitVec.eq_of_getLsbD_eq
  intro i hi
  simp [hi]

/-- A 7-bit signed immediate of the window is read back from its field (spec/30_encoding.md R65). -/
theorem toInt_ofInt7 {n : Int} (lo : -64 ≤ n) (hi : n ≤ 63) : (BitVec.ofInt 7 n).toInt = n := by
  rw [BitVec.toInt_ofInt, Int.bmod_def]; split <;> omega

/-- A 10-bit unsigned immediate of the window is read back from its field (spec/30_encoding.md R66). -/
theorem toNat_ofInt10 {n : Int} (lo : 0 ≤ n) (hi : n ≤ 0x3FF) : ((BitVec.ofInt 10 n).toNat : Int) = n := by
  simp; omega

theorem toInt7_bounds (v : BitVec 7) : -64 ≤ v.toInt ∧ v.toInt ≤ 63 := by
  have h1 := BitVec.toInt_lt (x := v)
  have h2 := BitVec.le_toInt (x := v)
  omega

/-- A word is the concatenation of its fields `w[17:13]`, `w[12:10]`, `w[9:7]`, `w[6:3]`, `w[2:0]`. -/
theorem word_eq_fields5 (w : IWord) :
    w = (w.extractLsb' 13 5 ++ w.extractLsb' 10 3 ++ w.extractLsb' 7 3 ++ w.extractLsb' 3 4 ++ w.extractLsb' 0 3 : BitVec 18) := by
  apply BitVec.eq_of_getLsbD_eq
  intro i hi
  simp only [BitVec.getLsbD_append, BitVec.getLsbD_extractLsb']
  interval_cases i <;> rfl

/-- A word is the concatenation of its fields `w[17:13]`, `w[12:10]`, `w[9:7]`, `w[6:0]`. -/
theorem word_eq_fields4 (w : IWord) :
    w = (w.extractLsb' 13 5 ++ w.extractLsb' 10 3 ++ w.extractLsb' 7 3 ++ w.extractLsb' 0 7 : BitVec 18) := by
  apply BitVec.eq_of_getLsbD_eq
  intro i hi
  simp only [BitVec.getLsbD_append, BitVec.getLsbD_extractLsb']
  interval_cases i <;> rfl

/-- A word is the concatenation of its fields `w[17:13]`, `w[12:10]`, `w[9:0]`. -/
theorem word_eq_fields3 (w : IWord) :
    w = (w.extractLsb' 13 5 ++ w.extractLsb' 10 3 ++ w.extractLsb' 0 10 : BitVec 18) := by
  apply BitVec.eq_of_getLsbD_eq
  intro i hi
  simp only [BitVec.getLsbD_append, BitVec.getLsbD_extractLsb']
  interval_cases i <;> rfl

/-! ### The fields of a concatenation -/

section

variable (op : BitVec 5) (a b c : BitVec 3) (z : BitVec 4) (t : BitVec 7) (u : BitVec 10)

theorem fields5_op : (op ++ a ++ b ++ z ++ c : BitVec 18).extractLsb' 13 5 = op :=
  (extractLsb'_append_high _ _ _ _ (by decide)).trans <| (extractLsb'_append_high _ _ _ _ (by decide)).trans <|
    (extractLsb'_append_high _ _ _ _ (by decide)).trans <| (extractLsb'_append_high _ _ _ _ (by decide)).trans <|
      extractLsb'_all op

theorem fields5_a : (op ++ a ++ b ++ z ++ c : BitVec 18).extractLsb' 10 3 = a :=
  (extractLsb'_append_high _ _ _ _ (by decide)).trans <| (extractLsb'_append_high _ _ _ _ (by decide)).trans <|
    (extractLsb'_append_high _ _ _ _ (by decide)).trans <| (extractLsb'_append_low _ _ _ _ (by decide)).trans <|
      extractLsb'_all a

theorem fields5_b : (op ++ a ++ b ++ z ++ c : BitVec 18).extractLsb' 7 3 = b :=
  (extractLsb'_append_high _ _ _ _ (by decide)).trans <| (extractLsb'_append_high _ _ _ _ (by decide)).trans <|
    (extractLsb'_append_low _ _ _ _ (by decide)).trans <| extractLsb'_all b

theorem fields5_z : (op ++ a ++ b ++ z ++ c : BitVec 18).extractLsb' 3 4 = z :=
  (extractLsb'_append_high _ _ _ _ (by decide)).trans <| (extractLsb'_append_low _ _ _ _ (by decide)).trans <|
    extractLsb'_all z

theorem fields5_c : (op ++ a ++ b ++ z ++ c : BitVec 18).extractLsb' 0 3 = c :=
  (extractLsb'_append_low _ _ _ _ (by decide)).trans <| extractLsb'_all c

theorem fields4_op : (op ++ a ++ b ++ t : BitVec 18).extractLsb' 13 5 = op :=
  (extractLsb'_append_high _ _ _ _ (by decide)).trans <| (extractLsb'_append_high _ _ _ _ (by decide)).trans <|
    (extractLsb'_append_high _ _ _ _ (by decide)).trans <| extractLsb'_all op

theorem fields4_a : (op ++ a ++ b ++ t : BitVec 18).extractLsb' 10 3 = a :=
  (extractLsb'_append_high _ _ _ _ (by decide)).trans <| (extractLsb'_append_high _ _ _ _ (by decide)).trans <|
    (extractLsb'_append_low _ _ _ _ (by decide)).trans <| extractLsb'_all a

theorem fields4_b : (op ++ a ++ b ++ t : BitVec 18).extractLsb' 7 3 = b :=
  (extractLsb'_append_high _ _ _ _ (by decide)).trans <| (extractLsb'_append_low _ _ _ _ (by decide)).trans <|
    extractLsb'_all b

theorem fields4_t : (op ++ a ++ b ++ t : BitVec 18).extractLsb' 0 7 = t :=
  (extractLsb'_append_low _ _ _ _ (by decide)).trans <| extractLsb'_all t

theorem fields3_op : (op ++ a ++ u : BitVec 18).extractLsb' 13 5 = op :=
  (extractLsb'_append_high _ _ _ _ (by decide)).trans <| (extractLsb'_append_high _ _ _ _ (by decide)).trans <|
    extractLsb'_all op

theorem fields3_a : (op ++ a ++ u : BitVec 18).extractLsb' 10 3 = a :=
  (extractLsb'_append_high _ _ _ _ (by decide)).trans <| (extractLsb'_append_low _ _ _ _ (by decide)).trans <|
    extractLsb'_all a

theorem fields3_u : (op ++ a ++ u : BitVec 18).extractLsb' 0 10 = u :=
  (extractLsb'_append_low _ _ _ _ (by decide)).trans <| extractLsb'_all u

end

/-! ### Packing, then reading a field -/

theorem opField_packRRR (op : BitVec 5) (a b c : Reg) : opField (packRRR op a b c) = op := fields5_op ..

theorem opField_packRRI (op : BitVec 5) (a b : Reg) (n : Int) : opField (packRRI op a b n) = op := fields4_op ..

theorem opField_packRI7 (op : BitVec 5) (a : Reg) (n : Int) : opField (packRI7 op a n) = op := fields4_op ..

theorem opField_packRR (op : BitVec 5) (a b : Reg) : opField (packRR op a b) = op := fields4_op ..

theorem opField_packR (op : BitVec 5) (a : Reg) : opField (packR op a) = op := fields3_op ..

theorem opField_packRI10 (op : BitVec 5) (a : Reg) (n : Int) : opField (packRI10 op a n) = op := fields3_op ..

/-- Format RRR reads back what was packed. -/
theorem decodeRRR_pack (op : BitVec 5) (a b c : Reg) (mk : Reg → Reg → Reg → Instr) :
    decodeRRR (packRRR op a b c) mk = .ok (mk a b c) := by
  simp only [decodeRRR, packRRR, aField, bField, cField, fields5_a, fields5_b, fields5_z, fields5_c, Reg.ofBits_bits, if_true]

/-- Format RRI reads back what was packed, for an immediate of the window. -/
theorem decodeRRI_pack (op : BitVec 5) (a b : Reg) {n : Int} (mk : Reg → Reg → Int → Instr) (lo : -64 ≤ n) (hi : n ≤ 63) :
    decodeRRI (packRRI op a b n) mk = .ok (mk a b n) := by
  simp only [decodeRRI, packRRI, aField, bField, imm7Field, fields4_a, fields4_b, fields4_t, Reg.ofBits_bits,
    toInt_ofInt7 lo hi]

/-- Format RI7 reads back what was packed, for an immediate of the window. -/
theorem decodeRI7_pack (op : BitVec 5) (a : Reg) {n : Int} (mk : Reg → Int → Instr) (lo : -64 ≤ n) (hi : n ≤ 63) :
    decodeRI7 (packRI7 op a n) mk = .ok (mk a n) := by
  simp only [decodeRI7, packRI7, aField, imm7Field, fields4_a, fields4_b, fields4_t, Reg.ofBits_bits,
    toInt_ofInt7 lo hi, if_true]

/-- Format RR reads back what was packed. -/
theorem decodeRR_pack (op : BitVec 5) (a b : Reg) (mk : Reg → Reg → Instr) :
    decodeRR (packRR op a b) mk = .ok (mk a b) := by
  simp only [decodeRR, packRR, aField, bField, fields4_a, fields4_b, fields4_t, Reg.ofBits_bits, if_true]

/-- Format R reads back what was packed. -/
theorem decodeR_pack (op : BitVec 5) (a : Reg) (mk : Reg → Instr) : decodeR (packR op a) mk = .ok (mk a) := by
  simp only [decodeR, packR, aField, fields3_a, fields3_u, Reg.ofBits_bits, if_true]

/-- Format RI10 reads back what was packed, for an immediate of the window. -/
theorem decodeRI10_pack (op : BitVec 5) (a : Reg) {n : Int} (mk : Reg → Int → Instr) (lo : 0 ≤ n) (hi : n ≤ 0x3FF) :
    decodeRI10 (packRI10 op a n) mk = .ok (mk a n) := by
  simp only [decodeRI10, packRI10, aField, imm10Field, fields3_a, fields3_u, Reg.ofBits_bits, toNat_ofInt10 lo hi]

/-! ### Reading the fields, then packing -/

/-- A word that format RRR accepts is the packing of its fields. -/
theorem packRRR_of_decode {w : IWord} {mk : Reg → Reg → Reg → Instr} {i : Instr} (h : decodeRRR w mk = .ok i) :
    ∃ a b c, i = mk a b c ∧ packRRR (opField w) a b c = w := by
  unfold decodeRRR at h
  split at h
  · next hz =>
    refine ⟨_, _, _, (Except.ok.inj h).symm, ?_⟩
    conv_rhs => rw [word_eq_fields5 w, hz]
    simp only [packRRR, aField, bField, cField, opField, Reg.bits_ofBits]
  · cases h

/-- A word of format RRI is the packing of its fields, and its immediate is in the window. -/
theorem packRRI_of_decode {w : IWord} {mk : Reg → Reg → Int → Instr} {i : Instr} (h : decodeRRI w mk = .ok i) :
    ∃ a b n, i = mk a b n ∧ packRRI (opField w) a b n = w ∧ -64 ≤ n ∧ n ≤ 63 := by
  refine ⟨_, _, _, (Except.ok.inj h).symm, ?_, toInt7_bounds _⟩
  conv_rhs => rw [word_eq_fields4 w]
  simp only [packRRI, aField, bField, imm7Field, opField, Reg.bits_ofBits, BitVec.ofInt_toInt]

/-- A word that format RI7 accepts is the packing of its fields, and its immediate is in the window. -/
theorem packRI7_of_decode {w : IWord} {mk : Reg → Int → Instr} {i : Instr} (h : decodeRI7 w mk = .ok i) :
    ∃ a n, i = mk a n ∧ packRI7 (opField w) a n = w ∧ -64 ≤ n ∧ n ≤ 63 := by
  unfold decodeRI7 at h
  split at h
  · next hz =>
    refine ⟨_, _, (Except.ok.inj h).symm, ?_, toInt7_bounds _⟩
    conv_rhs => rw [word_eq_fields4 w, hz]
    simp only [packRI7, aField, imm7Field, opField, Reg.bits_ofBits, BitVec.ofInt_toInt]
  · cases h

/-- A word that format RR accepts is the packing of its fields. -/
theorem packRR_of_decode {w : IWord} {mk : Reg → Reg → Instr} {i : Instr} (h : decodeRR w mk = .ok i) :
    ∃ a b, i = mk a b ∧ packRR (opField w) a b = w := by
  unfold decodeRR at h
  split at h
  · next hz =>
    refine ⟨_, _, (Except.ok.inj h).symm, ?_⟩
    conv_rhs => rw [word_eq_fields4 w, hz]
    simp only [packRR, aField, bField, opField, Reg.bits_ofBits]
  · cases h

/-- A word that format R accepts is the packing of its fields. -/
theorem packR_of_decode {w : IWord} {mk : Reg → Instr} {i : Instr} (h : decodeR w mk = .ok i) :
    ∃ a, i = mk a ∧ packR (opField w) a = w := by
  unfold decodeR at h
  split at h
  · next hz =>
    refine ⟨_, (Except.ok.inj h).symm, ?_⟩
    conv_rhs => rw [word_eq_fields3 w, hz]
    simp only [packR, aField, opField, Reg.bits_ofBits]
  · cases h

/-- A word of format RI10 is the packing of its fields, and its immediate is in the window. -/
theorem packRI10_of_decode {w : IWord} {mk : Reg → Int → Instr} {i : Instr} (h : decodeRI10 w mk = .ok i) :
    ∃ a n, i = mk a n ∧ packRI10 (opField w) a n = w ∧ 0 ≤ n ∧ n ≤ 0x3FF := by
  refine ⟨_, _, (Except.ok.inj h).symm, ?_, ?_, ?_⟩
  · conv_rhs => rw [word_eq_fields3 w]
    simp only [packRI10, aField, imm10Field, opField, Reg.bits_ofBits, BitVec.ofInt_natCast, BitVec.ofNat_toNat,
      BitVec.setWidth_eq]
  · exact Int.natCast_nonneg _
  · have := (w.extractLsb' 0 10).isLt
    simp only [imm10Field]; omega

end Sys2Proof
end

