-- ==== Sys2Proof/Laws/State.lean ====
section
/-! SUPPORT. One lemma for each field of the state after each update, and for what the updates leave readable. -/

namespace Sys2Proof.Machine

/-! ### `writeReg` -/

@[simp] theorem State.writeReg_regs (s : State) (r : Reg) (n : Int) : (s.writeReg r n).regs = s.regs.write r (toPattern n) := rfl
@[simp] theorem State.writeReg_pc (s : State) (r : Reg) (n : Int) : (s.writeReg r n).pc = s.pc := rfl
@[simp] theorem State.writeReg_dmem (s : State) (r : Reg) (n : Int) : (s.writeReg r n).dmem = s.dmem := rfl
@[simp] theorem State.writeReg_halted (s : State) (r : Reg) (n : Int) : (s.writeReg r n).halted = s.halted := rfl
@[simp] theorem State.writeReg_fault (s : State) (r : Reg) (n : Int) : (s.writeReg r n).fault = s.fault := rfl
@[simp] theorem State.writeReg_imem (s : State) (r : Reg) (n : Int) : (s.writeReg r n).imem = s.imem := rfl
@[simp] theorem State.writeReg_params (s : State) (r : Reg) (n : Int) : (s.writeReg r n).params = s.params := rfl
@[simp] theorem State.writeReg_memRead (s : State) (r : Reg) (n : Int) (adr : Int) : (s.writeReg r n).memRead adr = s.memRead adr := rfl

/-! ### `setPc` -/

@[simp] theorem State.setPc_regs (s : State) (n : Int) : (s.setPc n).regs = s.regs := rfl
@[simp] theorem State.setPc_pc (s : State) (n : Int) : (s.setPc n).pc = BitVec.ofInt 16 n := rfl
@[simp] theorem State.setPc_dmem (s : State) (n : Int) : (s.setPc n).dmem = s.dmem := rfl
@[simp] theorem State.setPc_halted (s : State) (n : Int) : (s.setPc n).halted = s.halted := rfl
@[simp] theorem State.setPc_fault (s : State) (n : Int) : (s.setPc n).fault = s.fault := rfl
@[simp] theorem State.setPc_imem (s : State) (n : Int) : (s.setPc n).imem = s.imem := rfl
@[simp] theorem State.setPc_params (s : State) (n : Int) : (s.setPc n).params = s.params := rfl
@[simp] theorem State.setPc_readReg (s : State) (n : Int) (q : Reg) : (s.setPc n).readReg q = s.readReg q := rfl
@[simp] theorem State.setPc_x (s : State) (n : Int) (q : Reg) : (s.setPc n).x q = s.x q := rfl
@[simp] theorem State.setPc_memRead (s : State) (n : Int) (adr : Int) : (s.setPc n).memRead adr = s.memRead adr := rfl

/-! ### `incrementPc` -/

@[simp] theorem State.incrementPc_regs (s : State) (d : Int) : (s.incrementPc d).regs = s.regs := rfl
@[simp] theorem State.incrementPc_pc (s : State) (d : Int) : (s.incrementPc d).pc = BitVec.ofInt 16 ((s.pc.toNat : Int) + d) := rfl
@[simp] theorem State.incrementPc_dmem (s : State) (d : Int) : (s.incrementPc d).dmem = s.dmem := rfl
@[simp] theorem State.incrementPc_halted (s : State) (d : Int) : (s.incrementPc d).halted = s.halted := rfl
@[simp] theorem State.incrementPc_fault (s : State) (d : Int) : (s.incrementPc d).fault = s.fault := rfl
@[simp] theorem State.incrementPc_imem (s : State) (d : Int) : (s.incrementPc d).imem = s.imem := rfl
@[simp] theorem State.incrementPc_params (s : State) (d : Int) : (s.incrementPc d).params = s.params := rfl
@[simp] theorem State.incrementPc_readReg (s : State) (d : Int) (q : Reg) : (s.incrementPc d).readReg q = s.readReg q := rfl
@[simp] theorem State.incrementPc_x (s : State) (d : Int) (q : Reg) : (s.incrementPc d).x q = s.x q := rfl
@[simp] theorem State.incrementPc_memRead (s : State) (d : Int) (adr : Int) : (s.incrementPc d).memRead adr = s.memRead adr := rfl

/-! ### `setHalted` -/

@[simp] theorem State.setHalted_regs (s : State) : (s.setHalted).regs = s.regs := rfl
@[simp] theorem State.setHalted_pc (s : State) : (s.setHalted).pc = s.pc := rfl
@[simp] theorem State.setHalted_dmem (s : State) : (s.setHalted).dmem = s.dmem := rfl
@[simp] theorem State.setHalted_halted (s : State) : (s.setHalted).halted = true := rfl
@[simp] theorem State.setHalted_fault (s : State) : (s.setHalted).fault = s.fault := rfl
@[simp] theorem State.setHalted_imem (s : State) : (s.setHalted).imem = s.imem := rfl
@[simp] theorem State.setHalted_params (s : State) : (s.setHalted).params = s.params := rfl
@[simp] theorem State.setHalted_readReg (s : State) (q : Reg) : (s.setHalted).readReg q = s.readReg q := rfl
@[simp] theorem State.setHalted_x (s : State) (q : Reg) : (s.setHalted).x q = s.x q := rfl
@[simp] theorem State.setHalted_memRead (s : State) (adr : Int) : (s.setHalted).memRead adr = s.memRead adr := rfl

/-! ### `raise` -/

@[simp] theorem State.raise_regs (s : State) (f : Fault) : (s.raise f).regs = s.regs := rfl
@[simp] theorem State.raise_pc (s : State) (f : Fault) : (s.raise f).pc = s.pc := rfl
@[simp] theorem State.raise_dmem (s : State) (f : Fault) : (s.raise f).dmem = s.dmem := rfl
@[simp] theorem State.raise_halted (s : State) (f : Fault) : (s.raise f).halted = s.halted := rfl
@[simp] theorem State.raise_fault (s : State) (f : Fault) : (s.raise f).fault = some f := rfl
@[simp] theorem State.raise_imem (s : State) (f : Fault) : (s.raise f).imem = s.imem := rfl
@[simp] theorem State.raise_params (s : State) (f : Fault) : (s.raise f).params = s.params := rfl
@[simp] theorem State.raise_readReg (s : State) (f : Fault) (q : Reg) : (s.raise f).readReg q = s.readReg q := rfl
@[simp] theorem State.raise_x (s : State) (f : Fault) (q : Reg) : (s.raise f).x q = s.x q := rfl
@[simp] theorem State.raise_memRead (s : State) (f : Fault) (adr : Int) : (s.raise f).memRead adr = s.memRead adr := rfl

/-! ### `memWrite` -/

@[simp] theorem State.memWrite_regs (s : State) (a v : Int) : (s.memWrite a v).regs = s.regs := rfl
@[simp] theorem State.memWrite_pc (s : State) (a v : Int) : (s.memWrite a v).pc = s.pc := rfl
@[simp] theorem State.memWrite_dmem (s : State) (a v : Int) : (s.memWrite a v).dmem = s.dmem.writeWord s.params.byteOrder a.toNat (toPattern v) := rfl
@[simp] theorem State.memWrite_halted (s : State) (a v : Int) : (s.memWrite a v).halted = s.halted := rfl
@[simp] theorem State.memWrite_fault (s : State) (a v : Int) : (s.memWrite a v).fault = s.fault := rfl
@[simp] theorem State.memWrite_imem (s : State) (a v : Int) : (s.memWrite a v).imem = s.imem := rfl
@[simp] theorem State.memWrite_params (s : State) (a v : Int) : (s.memWrite a v).params = s.params := rfl
@[simp] theorem State.memWrite_readReg (s : State) (a v : Int) (q : Reg) : (s.memWrite a v).readReg q = s.readReg q := rfl
@[simp] theorem State.memWrite_x (s : State) (a v : Int) (q : Reg) : (s.memWrite a v).x q = s.x q := rfl

/-! ### `clear` -/

@[simp] theorem State.clear_regs (s : State) (start : Addr) : (s.clear start).regs = RegFile.zero := rfl
@[simp] theorem State.clear_pc (s : State) (start : Addr) : (s.clear start).pc = start := rfl
@[simp] theorem State.clear_dmem (s : State) (start : Addr) : (s.clear start).dmem = s.dmem := rfl
@[simp] theorem State.clear_halted (s : State) (start : Addr) : (s.clear start).halted = false := rfl
@[simp] theorem State.clear_fault (s : State) (start : Addr) : (s.clear start).fault = none := rfl
@[simp] theorem State.clear_imem (s : State) (start : Addr) : (s.clear start).imem = s.imem := rfl
@[simp] theorem State.clear_params (s : State) (start : Addr) : (s.clear start).params = s.params := rfl
@[simp] theorem State.clear_memRead (s : State) (start : Addr) (adr : Int) : (s.clear start).memRead adr = s.memRead adr := rfl

/-! ### `fetchAdvance` -/

@[simp] theorem fetchAdvance_regs (s : State) : (fetchAdvance s).regs = s.regs := rfl
@[simp] theorem fetchAdvance_pc (s : State) : (fetchAdvance s).pc = BitVec.ofInt 16 ((s.pc.toNat : Int) + 2) := rfl
@[simp] theorem fetchAdvance_dmem (s : State) : (fetchAdvance s).dmem = s.dmem := rfl
@[simp] theorem fetchAdvance_halted (s : State) : (fetchAdvance s).halted = s.halted := rfl
@[simp] theorem fetchAdvance_fault (s : State) : (fetchAdvance s).fault = s.fault := rfl
@[simp] theorem fetchAdvance_imem (s : State) : (fetchAdvance s).imem = s.imem := rfl
@[simp] theorem fetchAdvance_params (s : State) : (fetchAdvance s).params = s.params := rfl
@[simp] theorem fetchAdvance_readReg (s : State) (q : Reg) : (fetchAdvance s).readReg q = s.readReg q := rfl
@[simp] theorem fetchAdvance_x (s : State) (q : Reg) : (fetchAdvance s).x q = s.x q := rfl
@[simp] theorem fetchAdvance_memRead (s : State) (adr : Int) : (fetchAdvance s).memRead adr = s.memRead adr := rfl

end Sys2Proof.Machine
end

