-- ==== Sys2Proof/Laws/Memory.lean ====
section
/-! SUPPORT. Data memory: every operation keeps the canonical form, a read gives the last value written, and a write leaves every
other byte alone. -/

namespace Sys2Proof.Machine

/-- A write leaves every other byte alone. -/
theorem Memory.readByte_writeByte_of_ne (m : Memory) {a b : Nat} (v : Byte) (h : b ≠ a) :
    (m.writeByte a v).readByte b = m.readByte b := by
  induction m with
  | nil =>
    unfold Memory.writeByte
    split <;> simp [Memory.readByte, Ne.symm h]
  | cons c m ih =>
    unfold Memory.writeByte
    split
    · split <;> simp [Memory.readByte, Ne.symm h]
    · split
      · next hc => split <;> simp [Memory.readByte, ← hc, Ne.symm h]
      · simp [Memory.readByte, ih]

theorem Memory.wf_tail {c : Host.Cell} {m : Memory} (h : Memory.wf (c :: m)) : Memory.wf m :=
  ⟨(List.pairwise_cons.mp h.1).2, fun d hd => h.2 d (List.mem_cons_of_mem _ hd)⟩

theorem Memory.wf_head_lt {c : Host.Cell} {m : Memory} (h : Memory.wf (c :: m)) {d : Host.Cell} (hd : d ∈ m) : c.1 < d.1 :=
  (List.pairwise_cons.mp h.1).1 _ (List.mem_map_of_mem hd)

/-- An address no cell has reads 0. -/
theorem Memory.readByte_of_forall_ne (m : Memory) {a : Nat} (h : ∀ c ∈ m, c.1 ≠ a) : m.readByte a = 0 := by
  induction m with
  | nil => rfl
  | cons c m ih =>
    simp [Memory.readByte, h c (by simp), ih fun d hd => h d (by simp [hd])]

/-- In a canonical memory a byte reads what was written to it. -/
theorem Memory.readByte_writeByte_self {m : Memory} (a : Nat) (v : Byte) (h : m.wf) : (m.writeByte a v).readByte a = v := by
  induction m with
  | nil => unfold Memory.writeByte; split <;> simp_all [Memory.readByte]
  | cons c m ih =>
    unfold Memory.writeByte
    split
    · next lt =>
      split
      · next hv =>
        rw [hv]
        refine Memory.readByte_of_forall_ne _ fun d hd => ?_
        rcases List.mem_cons.mp hd with rfl | hd
        · omega
        · have := Memory.wf_head_lt h hd; omega
      · simp [Memory.readByte]
    · split
      · next eq =>
        split
        · next hv =>
          rw [hv]
          refine Memory.readByte_of_forall_ne _ fun d hd => ?_
          have := Memory.wf_head_lt h hd
          omega
        · simp [Memory.readByte]
      · next ne =>
        simpa [Memory.readByte, Ne.symm ne] using ih (Memory.wf_tail h)

/-- The cells of a memory after a byte write: the old ones, and perhaps the one written. -/
theorem Memory.mem_writeByte {m : Memory} {a : Nat} {v : Byte} {d : Host.Cell} (h : d ∈ m.writeByte a v) :
    d ∈ m ∨ (d = (a, v) ∧ v ≠ 0) := by
  induction m with
  | nil =>
    unfold Memory.writeByte at h
    split at h <;> simp_all
  | cons c m ih =>
    unfold Memory.writeByte at h
    split at h
    · split at h
      · exact .inl h
      · next hv => rcases List.mem_cons.mp h with rfl | h
                   · exact .inr ⟨rfl, hv⟩
                   · exact .inl h
    · split at h
      · split at h
        · exact .inl (List.mem_cons_of_mem _ h)
        · next hv => rcases List.mem_cons.mp h with rfl | h
                     · exact .inr ⟨rfl, hv⟩
                     · exact .inl (List.mem_cons_of_mem _ h)
      · rcases List.mem_cons.mp h with rfl | h
        · exact .inl (by simp)
        · exact (ih h).imp (List.mem_cons_of_mem _) id

/-- A byte write keeps the canonical form. -/
theorem Memory.wf_writeByte {m : Memory} (a : Nat) (v : Byte) (h : m.wf) : (m.writeByte a v).wf := by
  refine ⟨?_, fun d hd => (Memory.mem_writeByte hd).elim (h.2 d) fun e => e.1 ▸ e.2⟩
  induction m with
  | nil => unfold Memory.writeByte; split <;> simp
  | cons c m ih =>
    unfold Memory.writeByte
    split
    · next lt =>
      split
      · exact h.1
      · simp only [List.map_cons, List.pairwise_cons]
        refine ⟨fun b hb => ?_, (List.pairwise_cons.mp h.1).1, (List.pairwise_cons.mp h.1).2⟩
        rcases List.mem_cons.mp hb with rfl | hb
        · exact lt
        · exact lt.trans ((List.pairwise_cons.mp h.1).1 b hb)
    · split
      · next eq =>
        split
        · exact (Memory.wf_tail h).1
        · simpa [eq] using h.1
      · next nlt ne =>
        simp only [List.map_cons, List.pairwise_cons]
        refine ⟨fun b hb => ?_, ih (Memory.wf_tail h)⟩
        obtain ⟨d, hd, rfl⟩ := List.mem_map.mp hb
        rcases Memory.mem_writeByte hd with hd | ⟨rfl, -⟩
        · exact Memory.wf_head_lt h hd
        · show c.1 < a
          omega

/-- A word write keeps the canonical form. -/
theorem Memory.wf_writeWord {m : Memory} (o : ByteOrder) (a : Nat) (v : Word) (h : m.wf) : (m.writeWord o a v).wf :=
  Memory.wf_writeByte _ _ (Memory.wf_writeByte _ _ h)

/-- Every cell of a memory after a word write is an old one or lies in the word. -/
theorem Memory.mem_writeWord {m : Memory} {o : ByteOrder} {a : Nat} {v : Word} {d : Host.Cell} (h : d ∈ m.writeWord o a v) :
    d ∈ m ∨ d.1 = a ∨ d.1 = a + 1 := by
  rcases Memory.mem_writeByte h with h | ⟨rfl, -⟩
  · rcases Memory.mem_writeByte h with h | ⟨rfl, -⟩
    · exact .inl h
    · exact .inr (.inl rfl)
  · exact .inr (.inr rfl)

/-- A word write leaves every byte outside the word alone. -/
theorem Memory.readByte_writeWord_of_ne (m : Memory) (o : ByteOrder) {a b : Nat} (v : Word) (h : b ≠ a) (h' : b ≠ a + 1) :
    (m.writeWord o a v).readByte b = m.readByte b := by
  rw [Memory.writeWord, Memory.setData, Memory.readByte_writeByte_of_ne _ _ h', Memory.readByte_writeByte_of_ne _ _ h]

theorem wordOfBytes_bytesOfWord (o : ByteOrder) (v : Word) : wordOfBytes o (bytesOfWord o v).1 (bytesOfWord o v).2 = v := by
  have h : (v.extractLsb' 8 8 ++ v.extractLsb' 0 8 : BitVec 16) = v := by
    apply BitVec.eq_of_getLsbD_eq
    intro i hi
    rw [BitVec.getLsbD_append]
    split
    · simp [*]
    · have : i - 8 < 8 := by omega
      simp [this, show 8 + (i - 8) = i by omega]
  cases o <;> exact h

/-- In a canonical memory a word reads what was written to it, whatever the byte order (spec/20_memory.md R46). -/
theorem Memory.readWord_writeWord_self {m : Memory} (o : ByteOrder) (a : Nat) (v : Word) (h : m.wf) :
    (m.writeWord o a v).readWord o a = v := by
  have lo : (m.writeWord o a v).readByte a = (bytesOfWord o v).1 := by
    rw [Memory.writeWord, Memory.setData, Memory.readByte_writeByte_of_ne _ _ (by omega),
      Memory.readByte_writeByte_self _ _ h]
  have hi : (m.writeWord o a v).readByte (a + 1) = (bytesOfWord o v).2 := by
    rw [Memory.writeWord, Memory.setData, Memory.readByte_writeByte_self _ _ (Memory.wf_writeByte _ _ h)]
  rw [Memory.readWord, Memory.getData, lo, hi, wordOfBytes_bytesOfWord]

/-- A word write leaves every other aligned word alone (spec/20_memory.md R45). -/
theorem Memory.readWord_writeWord_of_ne (m : Memory) (o : ByteOrder) {a b : Nat} (v : Word) (ha : a % 2 = 0) (hb : b % 2 = 0)
    (h : b ≠ a) : (m.writeWord o a v).readWord o b = m.readWord o b := by
  simp only [Memory.readWord, Memory.getData]
  rw [Memory.readByte_writeWord_of_ne _ _ _ h (by omega), Memory.readByte_writeWord_of_ne _ _ _ (by omega) (by omega)]

/-- The memory after reset has the canonical form. -/
theorem wf_reset : State.reset.dmem.wf := ⟨List.Pairwise.nil, fun _ h => absurd h List.not_mem_nil⟩

/-- What a valid word address is (spec/20_memory.md R43). -/
theorem isWordAddress_iff (p : Params) (ea : Int) :
    isWordAddress p ea = true ↔ 0 ≤ ea ∧ ea < (p.dmemBytes : Int) ∧ ea % 2 = 0 := by
  simp [isWordAddress]

end Sys2Proof.Machine
end

