-- ==== Sys2Proof/Laws/Registers.lean ====
section
/-! SUPPORT. Registers, `wrap16` and the pc: what a register holds after a write, and what a 16-bit pattern reads as. -/

namespace Sys2Proof

open Machine

/-- The signed reading of the pattern of `n` is `wrap16 n` (spec/00_scope.md R9). -/
theorem toInt_toPattern (n : Int) : (toPattern n).toInt = wrap16 n := by
  rw [toPattern, BitVec.toInt_ofInt, wrap16, Int.bmod_def]
  split <;> omega

theorem wrap16_bounds (n : Int) : -32768 ≤ wrap16 n ∧ wrap16 n ≤ 32767 := by
  unfold wrap16; omega

theorem wrap16_emod (n : Int) : wrap16 n % 65536 = n % 65536 := by
  unfold wrap16; omega

theorem wrap16_of_bounds {n : Int} (lo : -32768 ≤ n) (hi : n ≤ 32767) : wrap16 n = n := by
  unfold wrap16; omega

/-- Numbers congruent modulo 65536 have one pattern. -/
theorem toPattern_congr {m n : Int} (h : m % 65536 = n % 65536) : toPattern m = toPattern n := by
  apply BitVec.eq_of_toInt_eq
  rw [toInt_toPattern, toInt_toPattern, wrap16, wrap16]
  omega

/-- A 16-bit pattern is the pattern of its signed reading. -/
@[simp] theorem toPattern_toInt (v : Word) : toPattern v.toInt = v := BitVec.ofInt_toInt

/-- A 16-bit pattern is the pattern of its unsigned reading. -/
@[simp] theorem toPattern_toNat (v : Word) : toPattern (v.toNat : Int) = v := by
  simp [toPattern]

theorem toInt_bounds (v : Word) : -32768 ≤ v.toInt ∧ v.toInt ≤ 32767 := by
  have := wrap16_bounds v.toInt
  rwa [← toInt_toPattern, toPattern_toInt] at this

/-- The pc write is modulo 65536 (spec/10_state.md R25). -/
theorem toNat_ofInt16 (n : Int) : ((BitVec.ofInt 16 n).toNat : Int) = n % 65536 := by
  have h : 0 ≤ n % 65536 := Int.emod_nonneg _ (by decide)
  simpa using h

@[simp] theorem Machine.RegFile.read_r0 (f : RegFile) : f.read .r0 = 0 := rfl

@[simp] theorem Machine.RegFile.write_r0 (f : RegFile) (v : Word) : f.write .r0 v = f := rfl

/-- A register reads what was written to it, but for register 0 (spec/10_state.md R22). -/
theorem Machine.RegFile.read_write_self (f : RegFile) {r : Reg} (v : Word) (h : r ≠ .r0) : (f.write r v).read r = v := by
  cases r <;> first | exact absurd rfl h | rfl

/-- A write leaves every other register alone (spec/10_state.md R22). -/
theorem Machine.RegFile.read_write_of_ne (f : RegFile) {r q : Reg} (v : Word) (h : q ≠ r) : (f.write r v).read q = f.read q := by
  cases r <;> cases q <;> first | exact absurd rfl h | rfl

@[simp] theorem Machine.RegFile.read_zero (r : Reg) : RegFile.zero.read r = 0 := by
  cases r <;> rfl

@[simp] theorem Machine.State.readReg_r0 (s : State) : s.readReg .r0 = 0 := rfl

@[simp] theorem Machine.State.x_r0 (s : State) : s.x .r0 = 0 := rfl

theorem Machine.State.x_bounds (s : State) (r : Reg) : -32768 ≤ s.x r ∧ s.x r ≤ 32767 := toInt_bounds _

@[simp] theorem Machine.State.toPattern_x (s : State) (r : Reg) : toPattern (s.x r) = s.readReg r := toPattern_toInt _

@[simp] theorem Machine.State.writeReg_r0 (s : State) (n : Int) : s.writeReg .r0 n = s := rfl

theorem Machine.State.writeReg_readReg_self (s : State) {r : Reg} (n : Int) (h : r ≠ .r0) :
    (s.writeReg r n).readReg r = toPattern n := s.regs.read_write_self _ h

theorem Machine.State.writeReg_readReg_of_ne (s : State) {r q : Reg} (n : Int) (h : q ≠ r) :
    (s.writeReg r n).readReg q = s.readReg q := s.regs.read_write_of_ne _ h

/-- `x[r] <- n` makes `x[r]` equal to `wrap16 n` (spec/10_state.md R22). -/
theorem Machine.State.writeReg_x_self (s : State) {r : Reg} (n : Int) (h : r ≠ .r0) : (s.writeReg r n).x r = wrap16 n := by
  rw [State.x, s.writeReg_readReg_self n h, toInt_toPattern]

theorem Machine.State.writeReg_x_of_ne (s : State) {r q : Reg} (n : Int) (h : q ≠ r) : (s.writeReg r n).x q = s.x q := by
  rw [State.x, s.writeReg_readReg_of_ne n h, State.x]

/-- The address of the instruction a handler runs is the pc before the fetch-advance (spec/30_encoding.md R80). -/
@[simp] theorem Machine.instrAddr_fetchAdvance (s : State) : (fetchAdvance s).instrAddr = s.pc := by
  have h : BitVec.ofInt 16 ((s.pc.toNat : Int) + 2) = s.pc + 2 := by
    rw [BitVec.ofInt_add]; simp
  rw [State.instrAddr, fetchAdvance_pc, h, BitVec.add_sub_cancel]

/-- The pc after the fetch-advance, as bit-vector addition. -/
theorem Machine.fetchAdvance_eq (s : State) : fetchAdvance s = { s with pc := s.pc + 2 } := by
  have h : BitVec.ofInt 16 ((s.pc.toNat : Int) + 2) = s.pc + 2 := by
    rw [BitVec.ofInt_add]; simp
  rw [fetchAdvance, State.incrementPc, State.setPc, h]

end Sys2Proof
end

