-- ==== Sys2Proof/Laws/Ops.lean ====
section
/-! SUPPORT. What each shared operation, `exec` and `step` can do, said once. -/

namespace Sys2Proof.Machine

/-- `writeResult` completes with the one register write (spec/41_alu.md R132). -/
theorem writeResult_eq (a : Reg) (n : Int) (s : State) : writeResult a n s = .next (s.writeReg a n) := rfl

/-- `divideResult` takes the fault on a divisor 0 and else completes with the one register write (spec/42_muldiv.md R148). -/
theorem divideResult_cases (f : Int → Int → Int) (a : Reg) (m n : Int) (s : State) :
    (n = 0 ∧ divideResult f a m n s = .next (s.raise (.divideByZero s.instrAddr))) ∨
      (n ≠ 0 ∧ divideResult f a m n s = .next (s.writeReg a (f m n))) := by
  by_cases h : n = 0 <;> simp [divideResult, h, takeFault]

/-- `withWordAddress` takes the fault on an address that is no valid word address and else completes with what it is given
(spec/43_memory_ops.md R153). -/
theorem withWordAddress_cases (ea : Int) (s : State) (k : Int → State) :
    (isWordAddress s.params ea = false ∧ withWordAddress ea s k = .next (s.raise (.invalidAddress ea))) ∨
      (isWordAddress s.params ea = true ∧ withWordAddress ea s k = .next (k ea)) := by
  cases h : isWordAddress s.params ea <;> simp [withWordAddress, h, takeFault]

/-- A relative transfer by 0 leaves the state. -/
theorem State.setPc_self (s : State) : s.setPc (s.pc.toNat : Int) = s := by
  simp [State.setPc]

/-- `branchIf` is one pc write, to the next instruction when the branch is not taken (spec/44_control.md R167). -/
theorem branchIf_eq (taken : Bool) (imm : Int) (s : State) :
    branchIf taken imm s = .next (s.setPc ((s.pc.toNat : Int) + if taken then imm else 0)) := by
  cases taken
  · simp [branchIf, State.setPc_self]
  · rfl

/-- The target of `jalr`: the link just written when the two registers are the same, else the register's pattern
(spec/44_control.md R172). -/
theorem linkAndJump_pc (a b : Reg) (s : State) :
    (linkAndJump a b s).pc = if a = b ∧ a ≠ .r0 then s.pc else s.readReg b := by
  show BitVec.ofInt 16 ((s.writeReg a (s.pc.toNat : Int)).x b) = _
  rw [show BitVec.ofInt 16 ((s.writeReg a (s.pc.toNat : Int)).x b) = (s.writeReg a (s.pc.toNat : Int)).readReg b from
    State.toPattern_x _ _]
  split
  · next h => obtain ⟨rfl, h0⟩ := h; rw [s.writeReg_readReg_self _ h0, toPattern_toNat]
  · next h =>
    by_cases hb : b = a
    · subst hb
      have h0 : b = .r0 := by simpa using h
      subst h0; rfl
    · exact s.writeReg_readReg_of_ne _ hb

/-- `jalr` leaves everything but the link register and the pc. -/
theorem linkAndJump_frame (a b : Reg) (s : State) :
    (linkAndJump a b s).regs = s.regs.write a s.pc ∧ (linkAndJump a b s).dmem = s.dmem ∧
      (linkAndJump a b s).halted = s.halted ∧ (linkAndJump a b s).fault = s.fault ∧ (linkAndJump a b s).imem = s.imem ∧
      (linkAndJump a b s).params = s.params := by
  refine ⟨?_, rfl, rfl, rfl, rfl, rfl⟩
  show s.regs.write a (toPattern (s.pc.toNat : Int)) = _
  rw [toPattern_toNat]

/-- What a dispatched instruction can do: one register write, one fault, one load or store, one pc write, a link and a jump, or the
halt. -/
theorem exec_cases {i : Instr} {s t : State} (h : exec i s = .next t) :
    (∃ a n, recordDest i = some a ∧ functionalClass i.mnemonic ∈ [FunctionalClass.alu, .multiply, .divide] ∧
      t = s.writeReg a n) ∨
    (functionalClass i.mnemonic = .divide ∧ DividesByZero i s ∧ t = s.raise (.divideByZero s.instrAddr)) ∨
    (∃ a b imm, i = .lw a b imm ∧ isWordAddress s.params (s.x b + imm) = true ∧
      t = s.writeReg a (s.memRead (s.x b + imm))) ∨
    (∃ a b imm, i = .sw a b imm ∧ isWordAddress s.params (s.x b + imm) = true ∧ t = s.memWrite (s.x b + imm) (s.x a)) ∨
    (∃ ea, touchedAddress i s = some ea ∧ functionalClass i.mnemonic ∈ [FunctionalClass.load, .store] ∧
      isWordAddress s.params ea = false ∧ t = s.raise (.invalidAddress ea)) ∨
    (functionalClass i.mnemonic ∈ [FunctionalClass.branch, .jump, .ret] ∧ ∃ n, t = s.setPc n) ∨
    (∃ a b, i = .jalr a b ∧ ¬ (a = .r0 ∧ b = .r0) ∧ t = linkAndJump a b s) ∨
    (i = .jalr .r0 .r0 ∧ t = (linkAndJump .r0 .r0 s).setHalted) := by
  have write : ∀ (a : Reg) (n : Int), recordDest i = some a →
      functionalClass i.mnemonic ∈ [FunctionalClass.alu, .multiply, .divide] → writeResult a n s = .next t →
      ∃ a n, recordDest i = some a ∧ functionalClass i.mnemonic ∈ [FunctionalClass.alu, .multiply, .divide] ∧
        t = s.writeReg a n :=
    fun a n hd hc he => ⟨a, n, hd, hc, (Host.Outcome.next.inj he).symm⟩
  have divide : ∀ (f : Int → Int → Int) (a : Reg) (m n : Int), recordDest i = some a →
      functionalClass i.mnemonic = .divide → (n = 0 → DividesByZero i s) → divideResult f a m n s = .next t →
      (∃ a n, recordDest i = some a ∧ functionalClass i.mnemonic ∈ [FunctionalClass.alu, .multiply, .divide] ∧
        t = s.writeReg a n) ∨
      (functionalClass i.mnemonic = .divide ∧ DividesByZero i s ∧ t = s.raise (.divideByZero s.instrAddr)) := by
    intro f a m n hd hc h0 he
    rcases divideResult_cases f a m n s with ⟨hn, hz⟩ | ⟨-, hz⟩
    · exact .inr ⟨hc, h0 hn, (Host.Outcome.next.inj (hz.symm.trans he)).symm⟩
    · exact .inl ⟨a, _, hd, by simp [hc], (Host.Outcome.next.inj (hz.symm.trans he)).symm⟩
  have branch : ∀ (c : Bool) (imm : Int), branchIf c imm s = .next t → ∃ n, t = s.setPc n :=
    fun c imm he => ⟨_, (Host.Outcome.next.inj ((branchIf_eq c imm s).symm.trans he)).symm⟩
  cases i with
  | add a b c => exact .inl (write a _ rfl (by simp [functionalClass, Instr.mnemonic]) h)
  | addi a b n => exact .inl (write a _ rfl (by simp [functionalClass, Instr.mnemonic]) h)
  | sub a b c => exact .inl (write a _ rfl (by simp [functionalClass, Instr.mnemonic]) h)
  | subi a b n => exact .inl (write a _ rfl (by simp [functionalClass, Instr.mnemonic]) h)
  | and a b c => exact .inl (write a _ rfl (by simp [functionalClass, Instr.mnemonic]) h)
  | andi a b n => exact .inl (write a _ rfl (by simp [functionalClass, Instr.mnemonic]) h)
  | or a b c => exact .inl (write a _ rfl (by simp [functionalClass, Instr.mnemonic]) h)
  | ori a b n => exact .inl (write a _ rfl (by simp [functionalClass, Instr.mnemonic]) h)
  | nand a b c => exact .inl (write a _ rfl (by simp [functionalClass, Instr.mnemonic]) h)
  | nor a b c => exact .inl (write a _ rfl (by simp [functionalClass, Instr.mnemonic]) h)
  | mul a b c => exact .inl (write a _ rfl (by simp [functionalClass, Instr.mnemonic]) h)
  | muli a b n => exact .inl (write a _ rfl (by simp [functionalClass, Instr.mnemonic]) h)
  | lui a n => exact .inl (write a _ rfl (by simp [functionalClass, Instr.mnemonic]) h)
  | div a b c => exact (divide tdiv a _ _ rfl rfl (fun h0 => .inl ⟨a, b, c, .inl rfl, h0⟩) h).imp id .inl
  | divi a b n => exact (divide tdiv a _ _ rfl rfl (fun h0 => .inr ⟨a, b, .inl (h0 ▸ rfl)⟩) h).imp id .inl
  | mod a b c => exact (divide tmod a _ _ rfl rfl (fun h0 => .inl ⟨a, b, c, .inr rfl, h0⟩) h).imp id .inl
  | modi a b n => exact (divide tmod a _ _ rfl rfl (fun h0 => .inr ⟨a, b, .inr (h0 ▸ rfl)⟩) h).imp id .inl
  | lw a b n =>
    rcases withWordAddress_cases (effectiveAddress s b n) s (fun ea => s.writeReg a (s.memRead ea)) with ⟨hv, hz⟩ | ⟨hv, hz⟩
    · exact .inr (.inr (.inr (.inr (.inl ⟨_, rfl, by simp [functionalClass, Instr.mnemonic], hv, (Host.Outcome.next.inj (hz.symm.trans h)).symm⟩))))
    · exact .inr (.inr (.inl ⟨a, b, n, rfl, hv, (Host.Outcome.next.inj (hz.symm.trans h)).symm⟩))
  | sw a b n =>
    rcases withWordAddress_cases (effectiveAddress s b n) s (fun ea => s.memWrite ea (s.x a)) with ⟨hv, hz⟩ | ⟨hv, hz⟩
    · exact .inr (.inr (.inr (.inr (.inl ⟨_, rfl, by simp [functionalClass, Instr.mnemonic], hv, (Host.Outcome.next.inj (hz.symm.trans h)).symm⟩))))
    · exact .inr (.inr (.inr (.inl ⟨a, b, n, rfl, hv, (Host.Outcome.next.inj (hz.symm.trans h)).symm⟩)))
  | beq a b n => exact .inr (.inr (.inr (.inr (.inr (.inl ⟨by simp [functionalClass, Instr.mnemonic], branch _ _ h⟩)))))
  | bne a b n => exact .inr (.inr (.inr (.inr (.inr (.inl ⟨by simp [functionalClass, Instr.mnemonic], branch _ _ h⟩)))))
  | bgt a b n => exact .inr (.inr (.inr (.inr (.inr (.inl ⟨by simp [functionalClass, Instr.mnemonic], branch _ _ h⟩)))))
  | blt a b n => exact .inr (.inr (.inr (.inr (.inr (.inl ⟨by simp [functionalClass, Instr.mnemonic], branch _ _ h⟩)))))
  | bge a b n => exact .inr (.inr (.inr (.inr (.inr (.inl ⟨by simp [functionalClass, Instr.mnemonic], branch _ _ h⟩)))))
  | ble a b n => exact .inr (.inr (.inr (.inr (.inr (.inl ⟨by simp [functionalClass, Instr.mnemonic], branch _ _ h⟩)))))
  | jmp a n => exact .inr (.inr (.inr (.inr (.inr (.inl ⟨by simp [functionalClass, Instr.mnemonic], _, (Host.Outcome.next.inj h).symm⟩)))))
  | ret a => exact .inr (.inr (.inr (.inr (.inr (.inl ⟨by simp [functionalClass, Instr.mnemonic], _, (Host.Outcome.next.inj h).symm⟩)))))
  | jalr a b =>
    have e := (Host.Outcome.next.inj h).symm
    by_cases hz : a = .r0 ∧ b = .r0
    · obtain ⟨rfl, rfl⟩ := hz
      exact .inr (.inr (.inr (.inr (.inr (.inr (.inr ⟨rfl, e⟩))))))
    · rw [if_neg hz] at e
      exact .inr (.inr (.inr (.inr (.inr (.inr (.inl ⟨a, b, rfl, hz, e⟩))))))

/-- A fetch gives the word at an even pc inside the program (spec/30_encoding.md R81). -/
theorem fetch_eq_some {s : State} {w : IWord} :
    fetch s = some w ↔ s.pc.toNat % 2 = 0 ∧ s.imem[s.pc.toNat / 2]? = some w := by
  unfold fetch; split <;> simp [*]

/-- A fetch gives nothing exactly at an odd pc or beyond the program (spec/30_encoding.md R81). -/
theorem fetch_eq_none {s : State} : fetch s = none ↔ s.pc.toNat % 2 = 1 ∨ s.imem.length ≤ s.pc.toNat / 2 := by
  unfold fetch
  split
  · next h => simp [h]
  · next h => simp [Nat.mod_two_ne_zero.mp h]

/-- What a step that answers a next state can do: it was enabled, and it is a failed fetch, an illegal word, or the meaning of the
decoded instruction after the fetch-advance (spec/30_encoding.md R80). -/
theorem step_cases {s t : State} (h : step s = .next t) :
    s.imem ≠ [] ∧ s.halted = false ∧ s.fault = none ∧
      ((fetch s = none ∧ t = s.raise (.invalidFetch s.pc)) ∨
        ∃ w, fetch s = some w ∧
          ((∃ e, decode w = .error e ∧ t = (fetchAdvance s).raise (.illegalInstruction w)) ∨
            ∃ i, decode w = .ok i ∧ exec i (fetchAdvance s) = .next t)) := by
  unfold step cycle at h
  split at h
  · cases h
  · next hp =>
    split at h
    · cases h
    · next hh =>
      split at h
      · cases h
      · next hf =>
        refine ⟨hp, by simpa using hh, hf, ?_⟩
        split at h
        · next hn => exact .inl ⟨hn, (Host.Outcome.next.inj h).symm⟩
        · next w hw =>
          refine .inr ⟨w, hw, ?_⟩
          split at h
          · next e he => exact .inl ⟨e, he, (Host.Outcome.next.inj h).symm⟩
          · next i hi => exact .inr ⟨i, hi, h⟩

end Sys2Proof.Machine
end

