-- ==== Sys2Proof/Laws/PerInstr.lean ====
section
/-! SUPPORT. Facts about every instruction as syntax, one lemma for each constructor. -/

/-! ### An instruction is what binding its mnemonic and operands gives (spec/30_encoding.md R63, R82) -/

namespace Sys2Proof.Laws.SignatureBinds

open Sys2Proof.Machine

/-- Binding the operands of an instruction to its mnemonic, by position, gives the instruction back. -/
def Statement (i : Instr) : Prop := bindOperands i.mnemonic i.operands = some i

theorem add (a b c : Reg) : Statement (.add a b c) := rfl
theorem addi (a b : Reg) (imm : Int) : Statement (.addi a b imm) := rfl
theorem sub (a b c : Reg) : Statement (.sub a b c) := rfl
theorem subi (a b : Reg) (imm : Int) : Statement (.subi a b imm) := rfl
theorem and (a b c : Reg) : Statement (.and a b c) := rfl
theorem andi (a b : Reg) (imm : Int) : Statement (.andi a b imm) := rfl
theorem or (a b c : Reg) : Statement (.or a b c) := rfl
theorem ori (a b : Reg) (imm : Int) : Statement (.ori a b imm) := rfl
theorem nand (a b c : Reg) : Statement (.nand a b c) := rfl
theorem nor (a b c : Reg) : Statement (.nor a b c) := rfl
theorem mul (a b c : Reg) : Statement (.mul a b c) := rfl
theorem muli (a b : Reg) (imm : Int) : Statement (.muli a b imm) := rfl
theorem div (a b c : Reg) : Statement (.div a b c) := rfl
theorem divi (a b : Reg) (imm : Int) : Statement (.divi a b imm) := rfl
theorem mod (a b c : Reg) : Statement (.mod a b c) := rfl
theorem modi (a b : Reg) (imm : Int) : Statement (.modi a b imm) := rfl
theorem lw (a b : Reg) (imm : Int) : Statement (.lw a b imm) := rfl
theorem sw (a b : Reg) (imm : Int) : Statement (.sw a b imm) := rfl
theorem beq (a b : Reg) (imm : Int) : Statement (.beq a b imm) := rfl
theorem bne (a b : Reg) (imm : Int) : Statement (.bne a b imm) := rfl
theorem bgt (a b : Reg) (imm : Int) : Statement (.bgt a b imm) := rfl
theorem blt (a b : Reg) (imm : Int) : Statement (.blt a b imm) := rfl
theorem bge (a b : Reg) (imm : Int) : Statement (.bge a b imm) := rfl
theorem ble (a b : Reg) (imm : Int) : Statement (.ble a b imm) := rfl
theorem jmp (a : Reg) (imm : Int) : Statement (.jmp a imm) := rfl
theorem ret (a : Reg) : Statement (.ret a) := rfl
theorem jalr (a b : Reg) : Statement (.jalr a b) := rfl
theorem lui (a : Reg) (imm : Int) : Statement (.lui a imm) := rfl

end Sys2Proof.Laws.SignatureBinds

/-! ### An instruction's word carries the opcode of its row (spec/30_encoding.md R61, R62) -/

namespace Sys2Proof.Laws.EncodesItsOpcode

open Sys2Proof.Machine

/-- The opcode field of an instruction's word is that of its row of the opcode map. -/
def Statement (i : Instr) : Prop := opField (encode i) = (matchBits i.mnemonic).extractLsb' 13 5

theorem add (a b c : Reg) : Statement (.add a b c) := (opField_packRRR ..).trans (by show _ = (matchBits .add).extractLsb' 13 5; decide)
theorem addi (a b : Reg) (imm : Int) : Statement (.addi a b imm) := (opField_packRRI ..).trans (by show _ = (matchBits .addi).extractLsb' 13 5; decide)
theorem sub (a b c : Reg) : Statement (.sub a b c) := (opField_packRRR ..).trans (by show _ = (matchBits .sub).extractLsb' 13 5; decide)
theorem subi (a b : Reg) (imm : Int) : Statement (.subi a b imm) := (opField_packRRI ..).trans (by show _ = (matchBits .subi).extractLsb' 13 5; decide)
theorem and (a b c : Reg) : Statement (.and a b c) := (opField_packRRR ..).trans (by show _ = (matchBits .and).extractLsb' 13 5; decide)
theorem andi (a b : Reg) (imm : Int) : Statement (.andi a b imm) := (opField_packRRI ..).trans (by show _ = (matchBits .andi).extractLsb' 13 5; decide)
theorem or (a b c : Reg) : Statement (.or a b c) := (opField_packRRR ..).trans (by show _ = (matchBits .or).extractLsb' 13 5; decide)
theorem ori (a b : Reg) (imm : Int) : Statement (.ori a b imm) := (opField_packRRI ..).trans (by show _ = (matchBits .ori).extractLsb' 13 5; decide)
theorem nand (a b c : Reg) : Statement (.nand a b c) := (opField_packRRR ..).trans (by show _ = (matchBits .nand).extractLsb' 13 5; decide)
theorem nor (a b c : Reg) : Statement (.nor a b c) := (opField_packRRR ..).trans (by show _ = (matchBits .nor).extractLsb' 13 5; decide)
theorem mul (a b c : Reg) : Statement (.mul a b c) := (opField_packRRR ..).trans (by show _ = (matchBits .mul).extractLsb' 13 5; decide)
theorem muli (a b : Reg) (imm : Int) : Statement (.muli a b imm) := (opField_packRRI ..).trans (by show _ = (matchBits .muli).extractLsb' 13 5; decide)
theorem div (a b c : Reg) : Statement (.div a b c) := (opField_packRRR ..).trans (by show _ = (matchBits .div).extractLsb' 13 5; decide)
theorem divi (a b : Reg) (imm : Int) : Statement (.divi a b imm) := (opField_packRRI ..).trans (by show _ = (matchBits .divi).extractLsb' 13 5; decide)
theorem mod (a b c : Reg) : Statement (.mod a b c) := (opField_packRRR ..).trans (by show _ = (matchBits .mod).extractLsb' 13 5; decide)
theorem modi (a b : Reg) (imm : Int) : Statement (.modi a b imm) := (opField_packRRI ..).trans (by show _ = (matchBits .modi).extractLsb' 13 5; decide)
theorem lw (a b : Reg) (imm : Int) : Statement (.lw a b imm) := (opField_packRRI ..).trans (by show _ = (matchBits .lw).extractLsb' 13 5; decide)
theorem sw (a b : Reg) (imm : Int) : Statement (.sw a b imm) := (opField_packRRI ..).trans (by show _ = (matchBits .sw).extractLsb' 13 5; decide)
theorem beq (a b : Reg) (imm : Int) : Statement (.beq a b imm) := (opField_packRRI ..).trans (by show _ = (matchBits .beq).extractLsb' 13 5; decide)
theorem bne (a b : Reg) (imm : Int) : Statement (.bne a b imm) := (opField_packRRI ..).trans (by show _ = (matchBits .bne).extractLsb' 13 5; decide)
theorem bgt (a b : Reg) (imm : Int) : Statement (.bgt a b imm) := (opField_packRRI ..).trans (by show _ = (matchBits .bgt).extractLsb' 13 5; decide)
theorem blt (a b : Reg) (imm : Int) : Statement (.blt a b imm) := (opField_packRRI ..).trans (by show _ = (matchBits .blt).extractLsb' 13 5; decide)
theorem bge (a b : Reg) (imm : Int) : Statement (.bge a b imm) := (opField_packRRI ..).trans (by show _ = (matchBits .bge).extractLsb' 13 5; decide)
theorem ble (a b : Reg) (imm : Int) : Statement (.ble a b imm) := (opField_packRRI ..).trans (by show _ = (matchBits .ble).extractLsb' 13 5; decide)
theorem jmp (a : Reg) (imm : Int) : Statement (.jmp a imm) := (opField_packRI7 ..).trans (by show _ = (matchBits .jmp).extractLsb' 13 5; decide)
theorem ret (a : Reg) : Statement (.ret a) := (opField_packR ..).trans (by show _ = (matchBits .ret).extractLsb' 13 5; decide)
theorem jalr (a b : Reg) : Statement (.jalr a b) := (opField_packRR ..).trans (by show _ = (matchBits .jalr).extractLsb' 13 5; decide)
theorem lui (a : Reg) (imm : Int) : Statement (.lui a imm) := (opField_packRI10 ..).trans (by show _ = (matchBits .lui).extractLsb' 13 5; decide)

end Sys2Proof.Laws.EncodesItsOpcode
end

