-- ==== Sys2Proof/Tests/Slice0.lean ====
section
/-! SUPPORT. Tests. The expected results come from spec/95_test_vectors.md (the vector is named in the comment) or from the rule
named; each step test is one step from a small state. The last part shows, for each statement with hypotheses, operands and states
that meet them. -/

namespace Sys2Proof.Tests

open Sys2Proof Sys2Proof.Machine

/-- A core about to run `w` at address `a`, with registers 1 to 3 holding these integers and all else as after reset. -/
def core (a : Addr) (w : IWord) (x1 x2 x3 : Int) : State :=
  { State.reset with
    pc := a
    imem := placeInstruction [] (a.toNat / 2) w
    regs := { RegFile.zero with r1 := toPattern x1, r2 := toPattern x2, r3 := toPattern x3 } }

/-- A register and the pc after one step that answers a next state with no fault recorded. -/
def after (s : State) (r : Reg) : Option (Int × Nat) :=
  match step s with
  | .next t => if t.fault = none then some (t.x r, t.pc.toNat) else none
  | _ => none

/-- The fault recorded by one step, with the pc. -/
def faultAfter (s : State) : Option (Fault × Nat) :=
  match step s with
  | .next t => t.fault.map fun f => (f, t.pc.toNat)
  | _ => none

/-! ### Well-formedness: one ill-formed term for each check -/

theorem test_immediate_above_the_window : (Instr.addi .r1 .r1 64).wellFormed = false ∧ (Instr.addi .r1 .r1 63).wellFormed = true := by
  decide

theorem test_immediate_below_the_window : (Instr.sw .r1 .r1 (-65)).wellFormed = false ∧ (Instr.sw .r1 .r1 (-64)).wellFormed = true := by
  decide

theorem test_lui_immediate_above_the_window : (Instr.lui .r1 0x400).wellFormed = false ∧ (Instr.lui .r1 0x3FF).wellFormed = true := by
  decide

theorem test_lui_immediate_below_the_window : (Instr.lui .r1 (-1)).wellFormed = false ∧ (Instr.lui .r1 0).wellFormed = true := by
  decide

theorem test_label_operand_is_ill_formed : operandOk .beq (.label "l".toList) = false ∧ operandOk .beq (.reg .r0) = true := by
  decide

/-! ### Decoding: one word for each constructor, written out from 30_encoding.md R61 and R62 -/

/-- V-A1: `00000 001 010 0000 011`. -/
theorem test_decode_add : decode 0b000000010100000011 = .ok (.add .r1 .r2 .r3) ∧ encode (.add .r1 .r2 .r3) = 0b000000010100000011 := by decide

/-- V-E3: `00001 010 000 1000000`. -/
theorem test_decode_addi : decode 0b000010100001000000 = .ok (.addi .r2 .r0 (-64)) ∧ encode (.addi .r2 .r0 (-64)) = 0b000010100001000000 := by decide

/-- V-A6: `00010 001 010 0000 011`. -/
theorem test_decode_sub : decode 0b000100010100000011 = .ok (.sub .r1 .r2 .r3) ∧ encode (.sub .r1 .r2 .r3) = 0b000100010100000011 := by decide

/-- V-A8: `00011 001 001 0000001`. -/
theorem test_decode_subi : decode 0b000110010010000001 = .ok (.subi .r1 .r1 1) ∧ encode (.subi .r1 .r1 1) = 0b000110010010000001 := by decide

/-- V-A10: `00100 001 010 0000 011`. -/
theorem test_decode_and : decode 0b001000010100000011 = .ok (.and .r1 .r2 .r3) ∧ encode (.and .r1 .r2 .r3) = 0b001000010100000011 := by decide

/-- V-A13: `00101 001 010 1000000`. -/
theorem test_decode_andi : decode 0b001010010101000000 = .ok (.andi .r1 .r2 (-64)) ∧ encode (.andi .r1 .r2 (-64)) = 0b001010010101000000 := by decide

/-- V-A14: `00110 001 010 0000 011`. -/
theorem test_decode_or : decode 0b001100010100000011 = .ok (.or .r1 .r2 .r3) ∧ encode (.or .r1 .r2 .r3) = 0b001100010100000011 := by decide

/-- V-A16: `00111 001 000 1111111`. -/
theorem test_decode_ori : decode 0b001110010001111111 = .ok (.ori .r1 .r0 (-1)) ∧ encode (.ori .r1 .r0 (-1)) = 0b001110010001111111 := by decide

/-- V-A17: `01000 010 001 0000 001`. -/
theorem test_decode_nand : decode 0b010000100010000001 = .ok (.nand .r2 .r1 .r1) ∧ encode (.nand .r2 .r1 .r1) = 0b010000100010000001 := by decide

/-- V-E5: `01001 111 111 0000 111`. -/
theorem test_decode_nor : decode 0b010011111110000111 = .ok (.nor .r7 .r7 .r7) ∧ encode (.nor .r7 .r7 .r7) = 0b010011111110000111 := by decide

/-- V-M1: `01010 001 010 0000 011`. -/
theorem test_decode_mul : decode 0b010100010100000011 = .ok (.mul .r1 .r2 .r3) ∧ encode (.mul .r1 .r2 .r3) = 0b010100010100000011 := by decide

/-- V-M5: `01011 001 010 0111111`. -/
theorem test_decode_muli : decode 0b010110010100111111 = .ok (.muli .r1 .r2 63) ∧ encode (.muli .r1 .r2 63) = 0b010110010100111111 := by decide

/-- V-M6: `01100 001 010 0000 011`. -/
theorem test_decode_div : decode 0b011000010100000011 = .ok (.div .r1 .r2 .r3) ∧ encode (.div .r1 .r2 .r3) = 0b011000010100000011 := by decide

/-- V-M11: `01101 001 010 0000111`. -/
theorem test_decode_divi : decode 0b011010010100000111 = .ok (.divi .r1 .r2 7) ∧ encode (.divi .r1 .r2 7) = 0b011010010100000111 := by decide

/-- V-M12: `01110 001 010 0000 011`. -/
theorem test_decode_mod : decode 0b011100010100000011 = .ok (.mod .r1 .r2 .r3) ∧ encode (.mod .r1 .r2 .r3) = 0b011100010100000011 := by decide

/-- V-M14: `01111 001 010 1111110`. -/
theorem test_decode_modi : decode 0b011110010101111110 = .ok (.modi .r1 .r2 (-2)) ∧ encode (.modi .r1 .r2 (-2)) = 0b011110010101111110 := by decide

/-- V-L3: `10000 001 010 1111110`. -/
theorem test_decode_lw : decode 0b100000010101111110 = .ok (.lw .r1 .r2 (-2)) ∧ encode (.lw .r1 .r2 (-2)) = 0b100000010101111110 := by decide

/-- V-E6: `10001 011 010 0111111`. -/
theorem test_decode_sw : decode 0b100010110100111111 = .ok (.sw .r3 .r2 63) ∧ encode (.sw .r3 .r2 63) = 0b100010110100111111 := by decide

/-- V-J1: `10010 001 001 0000010`. -/
theorem test_decode_beq : decode 0b100100010010000010 = .ok (.beq .r1 .r1 2) ∧ encode (.beq .r1 .r1 2) = 0b100100010010000010 := by decide

/-- V-J5: `10011 001 010 1111000`. -/
theorem test_decode_bne : decode 0b100110010101111000 = .ok (.bne .r1 .r2 (-8)) ∧ encode (.bne .r1 .r2 (-8)) = 0b100110010101111000 := by decide

/-- V-J8: `10100 001 000 1111010`. -/
theorem test_decode_bgt : decode 0b101000010001111010 = .ok (.bgt .r1 .r0 (-6)) ∧ encode (.bgt .r1 .r0 (-6)) = 0b101000010001111010 := by decide

/-- V-J11: `10101 010 001 0000100`. -/
theorem test_decode_blt : decode 0b101010100010000100 = .ok (.blt .r2 .r1 4) ∧ encode (.blt .r2 .r1 4) = 0b101010100010000100 := by decide

/-- V-J13: `10110 010 001 1000000`. -/
theorem test_decode_bge : decode 0b101100100011000000 = .ok (.bge .r2 .r1 (-64)) ∧ encode (.bge .r2 .r1 (-64)) = 0b101100100011000000 := by decide

/-- V-E7: `10111 110 101 0111111`. -/
theorem test_decode_ble : decode 0b101111101010111111 = .ok (.ble .r6 .r5 63) ∧ encode (.ble .r6 .r5 63) = 0b101111101010111111 := by decide

/-- V-E8: `11000 011 000 1000000`. -/
theorem test_decode_jmp : decode 0b110000110001000000 = .ok (.jmp .r3 (-64)) ∧ encode (.jmp .r3 (-64)) = 0b110000110001000000 := by decide

/-- V-E9: `11001 111 000 0000000`. -/
theorem test_decode_ret : decode 0b110011110000000000 = .ok (.ret .r7) ∧ encode (.ret .r7) = 0b110011110000000000 := by decide

/-- V-E11: `11010 111 100 0000000`. -/
theorem test_decode_jalr : decode 0b110101111000000000 = .ok (.jalr .r7 .r4) ∧ encode (.jalr .r7 .r4) = 0b110101111000000000 := by decide

/-- V-E12: `11011 111 1111111111`. -/
theorem test_decode_lui : decode 0b110111111111111111 = .ok (.lui .r7 0x3FF) ∧ encode (.lui .r7 0x3FF) = 0b110111111111111111 := by decide

/-- V-E14 to V-E19, and their nearest legal neighbours. -/
theorem test_illegal_words : decode 0x38000 = .error .reservedOpcode ∧ decode 0x3FFFF = .error .reservedOpcode ∧
    decode 0x00008 = .error .mustBeZero ∧ decode 0x30080 = .error .mustBeZero ∧ decode 0x34001 = .error .mustBeZero ∧
    decode 0x32200 = .error .mustBeZero ∧ decode 0x00007 = .ok (.add .r0 .r0 .r7) ∧ decode 0x30040 = .ok (.jmp .r0 (-64)) ∧
    decode 0x34080 = .ok (.jalr .r0 .r1) ∧ decode 0x32400 = .ok (.ret .r1) ∧ decode 0x36000 = .ok (.lui .r0 0) := by decide

/-! ### One step of each instruction -/

/-- V-A1, V-A3. -/
theorem test_step_add : after (core 0 0x00503 0 32767 1) .r1 = some (-32768, 2) ∧ after (core 4 0x00102 0 5 0) .r0 = some (0, 6) := by decide

/-- V-A4, V-A5. -/
theorem test_step_addi : after (core 0 0x024FF (-32768) 0 0) .r1 = some (32767, 2) ∧ after (core 0 0x02840 0 9 0) .r2 = some (-64, 2) := by decide

/-- V-A6, V-A7. -/
theorem test_step_sub : after (core 0 0x04503 0 (-32768) 1) .r1 = some (32767, 2) ∧ after (core 0 0x04402 0 (-32768) 0) .r1 = some (-32768, 2) := by decide

/-- V-A8, V-A9 (R123). -/
theorem test_step_subi : after (core 0 0x06481 5 0 0) .r1 = some (4, 2) ∧ after (core 0 0x06540 5 100 0) .r1 = some (164, 2) := by decide

/-- V-A10. -/
theorem test_step_and : after (core 0 0x08503 0 0x0FF0 0x00FF) .r1 = some (240, 2) := by decide

/-- V-A12, V-A13. -/
theorem test_step_andi : after (core 0 0x0A57F 0 (-12345) 0) .r1 = some (-12345, 2) ∧ after (core 0 0x0A540 0 4863 0) .r1 = some (4800, 2) := by decide

/-- V-A14. -/
theorem test_step_or : after (core 0 0x0C503 0 0x0F00 0x00F0) .r1 = some (4080, 2) := by decide

/-- V-A15, V-A16. -/
theorem test_step_ori : after (core 0 0x0E505 0 256 0) .r1 = some (261, 2) ∧ after (core 0 0x0E47F 7 0 0) .r1 = some (-1, 2) := by decide

/-- V-A17, V-A18. -/
theorem test_step_nand : after (core 0 0x10881 (-21555) 0 0) .r2 = some (21554, 2) ∧ after (core 0 0x10500 0 77 0) .r1 = some (-1, 2) := by decide

/-- V-A19, V-A20. -/
theorem test_step_nor : after (core 0 0x12503 0 0x0F00 0x00F0) .r1 = some (-4081, 2) ∧ after (core 0 0x12400 5 0 0) .r1 = some (-1, 2) := by decide

/-- V-M1, V-M2. -/
theorem test_step_mul : after (core 0 0x14503 0 (-3) 7) .r1 = some (-21, 2) ∧ after (core 0 0x14502 0 300 0) .r1 = some (24464, 2) := by decide

/-- V-M4, V-M5. -/
theorem test_step_muli : after (core 0 0x1657F 0 (-32768) 0) .r1 = some (-32768, 2) ∧ after (core 0 0x1653F 0 1000 0) .r1 = some (-2536, 2) := by decide

/-- V-M6, V-M8, V-M17. -/
theorem test_step_div : after (core 0 0x18503 0 (-7) 2) .r1 = some (-3, 2) ∧ after (core 0 0x18503 0 (-7) (-2)) .r1 = some (3, 2) ∧
    faultAfter (core 2 0x18500 9 7 0) = some (.divideByZero 2, 4) := by decide

/-- V-M10, V-M11, V-M19. -/
theorem test_step_divi : after (core 0 0x1A57F 0 (-32768) 0) .r1 = some (-32768, 2) ∧ after (core 0 0x1A507 0 100 0) .r1 = some (14, 2) ∧
    faultAfter (core 0 0x1A500 9 7 0) = some (.divideByZero 0, 2) := by decide

/-- V-M12, V-M13, R145. -/
theorem test_step_mod : after (core 0 0x1C503 0 (-7) 2) .r1 = some (-1, 2) ∧ after (core 0 0x1C503 0 7 (-2)) .r1 = some (1, 2) ∧
    faultAfter (core 2 0x1C500 9 7 0) = some (.divideByZero 2, 4) := by decide

/-- V-M14, V-M15, V-M20. -/
theorem test_step_modi : after (core 0 0x1E57E 0 7 0) .r1 = some (1, 2) ∧ after (core 0 0x1E57F 5 (-32768) 0) .r1 = some (0, 2) ∧
    faultAfter (core 0 0x1E500 9 7 0) = some (.divideByZero 0, 2) := by decide

/-- V-L3, V-L5, V-L12. -/
theorem test_step_lw : after { core 0 0x2057E 0 6 0 with dmem := [(4, 0xF7), (5, 0xFF)] } .r1 = some (-9, 2) ∧
    faultAfter (core 0 0x20401 0 0 0) = some (.invalidAddress 1, 2) ∧
    faultAfter (core 0 0x2053F 0 32767 0) = some (.invalidAddress 32830, 2) := by decide

/-- V-L8, V-L7, V-L11. -/
theorem test_step_sw : (step (core 0 0x22D00 0 62 (-1)) = .next { core 0 0x22D00 0 62 (-1) with pc := 2, dmem := [(62, 0xFF), (63, 0xFF)] }) ∧
    faultAfter (core 0 0x22D3F 0 2 0) = some (.invalidAddress 65, 2) ∧
    step { core 0 0x22002 0 0 0 with dmem := [(2, 5)] } = .next { core 0 0x22002 0 0 0 with pc := 2 } := by
  repeat' apply And.intro
  all_goals first | decide | rfl

/-- V-J1, V-J2, V-J3. -/
theorem test_step_beq : after (core 4 0x24482 5 0 0) .r1 = some (5, 8) ∧ after (core 4 0x24502 1 2 0) .r1 = some (1, 6) ∧
    after (core 20 0x2407E 0 0 0) .r0 = some (0, 20) := by decide

/-- V-J5, V-J7. -/
theorem test_step_bne : after (core 10 0x26578 3 0 0) .r1 = some (3, 4) ∧ after (core 0 0x26484 9 0 0) .r1 = some (9, 2) := by decide

/-- V-J8, V-J9. -/
theorem test_step_bgt : after (core 8 0x2847A 4 0 0) .r1 = some (4, 4) ∧ after (core 0 0x28504 (-32768) 32767 0) .r1 = some (-32768, 2) := by decide

/-- V-J10, V-J11. -/
theorem test_step_blt : after (core 0 0x2A504 (-1) 1 0) .r1 = some (-1, 6) ∧ after (core 0 0x2A884 (-1) 1 0) .r1 = some (-1, 2) := by decide

/-- V-J12, V-J13. -/
theorem test_step_bge : after (core 0 0x2C504 2 2 0) .r1 = some (2, 6) ∧ after (core 100 0x2C8C0 5 7 0) .r1 = some (5, 38) := by decide

/-- V-J14, R166. -/
theorem test_step_ble : after (core 0 0x2E504 2 2 0) .r1 = some (2, 6) ∧ after (core 0 0x2E504 3 2 0) .r1 = some (3, 2) := by decide

/-- V-J17, V-J18. -/
theorem test_step_jmp : after (core 100 0x30C40 0 0 10) .r3 = some (10, 48) ∧ after (core 0 0x30400 (-4) 0 0) .r1 = some (-4, 0xFFFE) := by decide

/-- V-J20, V-J21. -/
theorem test_step_ret : after (core 0 0x32400 (-2) 0 0) .r1 = some (-2, 0xFFFE) ∧ after (core 6 0x32000 0 0 0) .r0 = some (0, 0) := by decide

/-- V-J6, V-J23, V-J24, V-J25. -/
theorem test_step_jalr : after (core 2 0x34480 6 0 0) .r1 = some (4, 4) ∧ after (core 6 0x34180 0 0 20) .r0 = some (0, 20) ∧
    after (core 6 0x34800 0 5 0) .r2 = some (8, 0) ∧
    step (core 10 0x34000 3 0 0) = .next { core 10 0x34000 3 0 0 with pc := 0, halted := true } := by
  repeat' apply And.intro
  all_goals first | decide | rfl

/-- V-A21, V-A22, V-A23. -/
theorem test_step_lui : after (core 0 0x36404 999 0 0) .r1 = some (256, 2) ∧ after (core 0 0x36E00 0 0 0) .r3 = some (-32768, 2) ∧
    after (core 0 0x37FFF 0 0 0) .r7 = some (-64, 2) := by decide

/-! ### Fetch, faults, reset, records -/

/-- V-F1, V-F2, V-F6. -/
theorem test_fetch_faults : step { core 0 0 3 0 0 with pc := 10 } = .next { core 0 0 3 0 0 with pc := 10, fault := some (.invalidFetch 10) } ∧
    faultAfter { core 0 0 3 0 0 with pc := 3 } = some (.invalidFetch 3, 3) ∧
    faultAfter (core 0 0x38000 0 0 0) = some (.illegalInstruction 0x38000, 2) := by
  repeat' apply And.intro
  all_goals first | decide | rfl

/-- V-F3, V-F4, 70_reset_and_hazards.md R203. -/
theorem test_no_step_when_stopped : step { core 0 0 0 0 0 with fault := some (.divideByZero 2) } = .fault (.divideByZero 2) ∧
    step { core 0 0 0 0 0 with halted := true } = .refused .halted ∧ step State.reset = .refused .noProgram := by
  repeat' apply And.intro
  all_goals first | decide | rfl

/-- V-F5. -/
theorem test_reset_leaves_a_fault : hostReset { core 4 7 3 0 0 with fault := some (.invalidAddress 1), dmem := [(2, 5)] } =
    { core 4 7 0 0 0 with pc := 0, dmem := [(2, 5)] } := by decide

/-- V-L2 and 30_encoding.md R83: a record of each shape. -/
theorem test_result_records :
    stepRecord (core 0 0x20D02 0 6 0) = some ⟨.load, some .r3, .addr 8⟩ ∧
    stepRecord (core 0 0x22808 0 15 0) = some ⟨.store, none, .addr 8⟩ ∧
    stepRecord (core 0 0x36005 0 0 0) = some ⟨.alu, some .r0, .pc 2⟩ ∧
    stepRecord (core 4 0x24482 5 0 0) = some ⟨.branch, none, .pc 8⟩ ∧
    stepRecord (core 6 0x35E00 0 0 0) = some ⟨.jumpAndLink, some .r7, .pc 0⟩ ∧
    stepRecord (core 0 0x1A500 9 7 0) = none := by decide

/-- The word placed for the next fetch runs first (log entry 7), and the table's words decode. -/
theorem test_withFetchWord : (step (State.reset.withFetchWord 24 0x36404)) =
      .next { State.reset with pc := 2, imem := [0x36404], regs := { RegFile.zero with r1 := 256 } } ∧
    decodeTableWord 24 0x36404 = some (.lui .r1 4) ∧ decodeTableWord 24 0x38000 = none := by
  repeat' apply And.intro
  all_goals first | decide | rfl

/-! ### Assembler and resolver -/

/-- V-R1, V-R3 to V-R7. -/
theorem test_resolve : resolve 4 8 = .ok 2 ∧ resolve 0 64 = .ok 62 ∧ resolve 0 66 = .error .branchOutOfRange ∧
    resolve 64 2 = .ok (-64) ∧ resolve 66 2 = .error .branchOutOfRange ∧ resolve 10 10 = .ok (-2) := by decide

/-- V-R8. -/
theorem test_assemble_label_after_movi : (assembleProgram "movi r1, 0x100\nl: addi r1, r1, 1\nbeq r0, r0, l".toList).map (List.map encode) =
    .ok [0x36404, 0x02480, 0x02481, 0x2407C] := by decide

/-- V-R9 to V-R11. -/
theorem test_assemble_constants : assembleProgram "movi r3, 0xffff\nlli r2, 0x1ff\nlli r2, -1".toList =
      .ok [.lui .r3 1023, .addi .r3 .r3 63, .addi .r2 .r2 63, .addi .r2 .r2 63] ∧
    assembleProgram "movi r3, 0x10000".toList = .error .immediateOutOfRange ∧
    assembleProgram "movi r3, -1".toList = .error .immediateOutOfRange := by decide

/-- V-R13 to V-R16, V-R18, V-R19. -/
theorem test_assemble_operand_errors : assembleProgram "nop r1".toList = .error .arityMismatch ∧
    assembleProgram "foo r1".toList = .error .unknownMnemonic ∧ assembleProgram "add r1, r2".toList = .error .arityMismatch ∧
    assembleProgram "add r1, r2, r8".toList = .error .unknownRegister ∧
    assembleProgram "addi r1, r2, x".toList = .error .badLiteral ∧
    assembleProgram "addi r1, r2, 0x40".toList = .error .immediateOutOfRange := by decide

/-- V-R17, V-R26. -/
theorem test_assemble_case_and_end_label : assembleProgram "ADD R1, R2, R3 # sum\nbeq r0, r0, end\nend: .fill 0".toList =
    .ok [.add .r1 .r2 .r3, .beq .r0 .r0 0] := by decide

/-- V-R20 to V-R25. -/
theorem test_assemble_label_and_program_errors : assembleProgram "beq r1, r2, nowhere".toList = .error .undefinedLabel ∧
    assembleProgram ": add r1, r1, r1".toList = .error .emptyLabel ∧ assembleProgram "loop:".toList = .error .labelOnlyLine ∧
    assembleProgram "a: nop\na: nop".toList = .error .duplicateLabel ∧
    assembleProgram "# only a comment".toList = .error .emptyProgram ∧ assembleProgram ".fill 3".toList = .error .emptyProgram := by
  decide

/-- V-R27 to V-R31. -/
theorem test_load_data : load "0 7\n2 -3".toList "nop".toList State.reset =
      .ok { State.reset with imem := [0], dmem := [(0, 7), (2, 0xFD), (3, 0xFF)] } ∧
    dataImage State.reset.params "1 5".toList = .error .badDataAddress ∧
    dataImage State.reset.params "0 0x8000".toList = .error .dataValueOutOfRange ∧
    dataImage State.reset.params "0 0x7fff".toList = .ok [(0, 0xFF), (1, 0x7F)] ∧
    dataImage State.reset.params "0 1 2".toList = .error .badDataLine := by decide

/-- S7: both Loads fail with the one message, which the host gets, and the core is unchanged. -/
theorem test_empty_program_message :
    perform (.load [] []) State.reset = (State.reset, .loadError .emptyProgram "enter one or more instructions".toList) ∧
    perform (.load "0 7".toList "   ".toList) State.reset =
      (State.reset, .loadError .emptyProgram "enter one or more instructions".toList) := by decide

/-! ### Witnesses: operands and states that meet a statement's hypotheses, at the ends of their ranges -/

/-- `State.reset` with a program, registers and memory ready to run. -/
def ready : State := core 0 0x00503 5 62 (-1)

theorem witness_Wrap16IsTheUniqueRepresentative :
    ((-32768 : Int) ≤ -32768 ∧ (-32768 : Int) % 65536 = 32768 % 65536) ∧ (32767 : Int) ≤ 32767 ∧ (32767 : Int) % 65536 = (-32769) % 65536 := by
  decide

theorem witness_RegisterZeroReadsZeroAroundEveryInstruction : exec (.addi .r0 .r1 5) ready = .next ready := rfl

theorem witness_RegisterWriteStoresWrap16 : Reg.r7 ≠ .r0 ∧ Reg.r0 = .r0 := by decide

theorem witness_DecodeOfEncodeIsTheInstruction :
    [Instr.addi .r7 .r0 (-64), .jmp .r7 63, .lui .r0 0, .lui .r7 0x3FF, .ret .r7].all Instr.wellFormed = true := by decide

theorem witness_EncodeOfDecodeIsTheWord : decode 0x00000 = .ok (.add .r0 .r0 .r0) ∧ decode 0x37FFF = .ok (.lui .r7 0x3FF) := by decide

/-- The state runs, its pc is even, and the word at its pc is `w`. -/
def Runs (s : State) (w : IWord) : Prop :=
  s.halted = false ∧ s.fault = none ∧ s.pc.toNat % 2 = 0 ∧ s.imem[s.pc.toNat / 2]? = some w

theorem witness_StepRunsTheDecodedInstruction : Runs ready 0x00503 ∧ decode 0x00503 = .ok (.add .r1 .r2 .r3) := by
  unfold Runs; decide

theorem witness_StepAtAnAddressWithoutInstructionFaults :
    (ready.imem ≠ [] ∧ ready.halted = false ∧ ready.fault = none) ∧
    ({ ready with pc := 1 }.pc.toNat % 2 = 1) ∧ { ready with pc := 2 }.imem.length ≤ { ready with pc := 2 }.pc.toNat / 2 := by decide

theorem witness_StepOnAnIllegalWordFaults : Runs (core 0 0x38000 0 0 0) 0x38000 ∧ decode 0x38000 = .error .reservedOpcode ∧
    Runs (core 2 0x00008 0 0 0) 0x00008 ∧ decode 0x00008 = .error .mustBeZero := by
  unfold Runs; decide

theorem witness_NoStepIsEnabledWhenStopped : State.reset.imem = [] ∧
    ({ ready with halted := true }.imem ≠ [] ∧ { ready with halted := true }.halted = true) ∧
    ready.halted = false ∧ { ready with fault := some (.invalidFetch 1) }.fault = some (.invalidFetch 1) := by decide

theorem witness_EveryEnabledStepAnswersANextState : ready.imem ≠ [] ∧ ready.halted = false ∧ ready.fault = none := by decide

theorem witness_AddWritesTheWrappedSum : FieldsRRR 0 .r7 .r0 .r7 0x01c07 ∧ FieldsRRI 1 .r7 .r0 (-64) 0x03c40 := by
  unfold FieldsRRI FieldsRRR; decide

theorem witness_SubWritesTheWrappedDifference : FieldsRRR 2 .r7 .r0 .r7 0x05c07 ∧ FieldsRRI 3 .r7 .r0 (-64) 0x07c40 := by
  unfold FieldsRRI FieldsRRR; decide

theorem witness_AndWritesTheBitwiseConjunction : FieldsRRR 4 .r7 .r0 .r7 0x09c07 ∧ FieldsRRI 5 .r7 .r0 (-64) 0x0bc40 := by
  unfold FieldsRRI FieldsRRR; decide

theorem witness_OrWritesTheBitwiseDisjunction : FieldsRRR 6 .r7 .r0 .r7 0x0dc07 ∧ FieldsRRI 7 .r7 .r0 (-64) 0x0fc40 := by
  unfold FieldsRRI FieldsRRR; decide

theorem witness_NandAndNorWriteTheComplements : FieldsRRR 8 .r7 .r0 .r7 0x11c07 ∧ FieldsRRR 9 .r7 .r0 .r7 0x13c07 := by
  unfold FieldsRRR; decide

theorem witness_LuiWritesTheShiftedImmediate : FieldsRI10 27 .r7 0 0x37c00 ∧ FieldsRI10 27 .r7 0x3FF 0x37fff ∧ ((0 : Int) ≤ 0 ∧ (0x3FF : Int) ≤ 0x3FF) := by
  unfold FieldsRI10; decide

theorem witness_MulWritesTheWrappedProduct : FieldsRRR 10 .r7 .r0 .r7 0x15c07 ∧ FieldsRRI 11 .r7 .r0 (-64) 0x17c40 := by
  unfold FieldsRRI FieldsRRR; decide

theorem witness_DivWritesTheQuotient : FieldsRRR 12 .r7 .r0 .r7 0x19c07 ∧ FieldsRRI 13 .r7 .r0 (-64) 0x1bc40 ∧
    ready.x .r3 ≠ 0 ∧ ready.x .r0 = 0 ∧ (-64 : Int) ≠ 0 := by
  unfold FieldsRRI FieldsRRR; decide

theorem witness_ModWritesTheRemainder : FieldsRRR 14 .r7 .r0 .r7 0x1dc07 ∧ FieldsRRI 15 .r7 .r0 (-64) 0x1fc40 ∧
    ready.x .r3 ≠ 0 ∧ ready.x .r0 = 0 ∧ (63 : Int) ≠ 0 := by
  unfold FieldsRRI FieldsRRR; decide

theorem witness_DivisionTruncatesTowardZero : (-1 : Int) ≠ 0 ∧ (1 : Int) ≠ 0 := by
  decide

theorem witness_DivideByZeroStepRecordsTheAddress : (Runs (core 2 0x18500 0 0 0) 0x18500 ∧ decode 0x18500 = .ok (.div .r1 .r2 .r0) ∧
      (core 2 0x18500 0 0 0).x .r0 = 0) ∧ Runs (core 0 0x1E500 9 7 0) 0x1E500 ∧ decode 0x1E500 = .ok (.modi .r1 .r2 0) ∧
      Runs (core 0 0x1A500 9 7 0) 0x1A500 ∧ decode 0x1A500 = .ok (.divi .r1 .r2 0) ∧
      Runs (core 0 0x1C500 9 7 0) 0x1C500 ∧ decode 0x1C500 = .ok (.mod .r1 .r2 .r0) := by
  unfold Runs; decide

theorem witness_LoadWordReadsOrFaults : FieldsRRI 16 .r7 .r0 63 0x21c3f ∧ isWordAddress ready.params (ready.x .r2 + 0) = true ∧ isWordAddress ready.params (ready.x .r0 + 0) = true ∧
    isWordAddress ready.params (ready.x .r2 + 2) = false ∧ isWordAddress ready.params (ready.x .r3 + 0) = false := by
  unfold FieldsRRI; decide

theorem witness_StoreWordWritesOneWordOrFaults : FieldsRRI 17 .r7 .r0 63 0x23c3f ∧ isWordAddress ready.params (ready.x .r2 + 0) = true ∧ isWordAddress ready.params (ready.x .r0 + 0) = true ∧
    isWordAddress ready.params (ready.x .r2 + 2) = false ∧ isWordAddress ready.params (ready.x .r3 + 0) = false ∧ ready.dmem.wf := by
  unfold FieldsRRI; decide

theorem witness_MisalignedOrOutOfRangeAddressesFault : ready.x .r3 + 0 < 0 ∧ (ready.params.dmemBytes : Int) ≤ ready.x .r2 + 2 ∧ (ready.x .r0 + 1) % 2 = 1 := by
  decide

theorem witness_InvalidAddressStepRecordsTheAddress : Runs (core 0 0x20401 0 0 0) 0x20401 ∧ decode 0x20401 = .ok (.lw .r1 .r0 1) ∧
    isWordAddress (core 0 0x20401 0 0 0).params ((core 0 0x20401 0 0 0).x .r0 + 1) = false ∧
    Runs (core 0 0x22D3F 0 2 0) 0x22D3F ∧ decode 0x22D3F = .ok (.sw .r3 .r2 63) ∧
    isWordAddress (core 0 0x22D3F 0 2 0).params ((core 0 0x22D3F 0 2 0).x .r2 + 63) = false := by
  unfold Runs; decide

theorem witness_LoadAfterStoreGivesTheStoredValue : ready.dmem.wf ∧ isWordAddress ready.params (ready.x .r2 + 0) = true ∧
    exec (.sw .r3 .r2 0) ready = .next { ready with dmem := [(62, 0xFF), (63, 0xFF)] } ∧
    { ready with dmem := [(62, 0xFF), (63, 0xFF)] }.x .r0 + 62 = ready.x .r2 + 0 := by
  repeat' apply And.intro
  all_goals first | decide | rfl

theorem witness_BeqAndBneBranchOnEquality : FieldsRRI 18 .r7 .r0 (-64) 0x25c40 ∧ FieldsRRI 19 .r7 .r0 (-64) 0x27c40 := by
  unfold FieldsRRI; decide

theorem witness_BgtAndBltBranchOnStrictOrder : FieldsRRI 20 .r7 .r0 (-64) 0x29c40 ∧ FieldsRRI 21 .r7 .r0 (-64) 0x2bc40 := by
  unfold FieldsRRI; decide

theorem witness_BgeAndBleBranchOnWeakOrder : FieldsRRI 22 .r7 .r0 (-64) 0x2dc40 ∧ FieldsRRI 23 .r7 .r0 (-64) 0x2fc40 := by
  unfold FieldsRRI; decide

theorem witness_JmpAddsRegisterAndOffset : FieldsRI7 24 .r7 63 0x31c3f ∧ FieldsRI7 24 .r3 (-64) 0x30c40 := by
  unfold FieldsRI7; decide

theorem witness_RetJumpsToTheRegister : FieldsR 25 .r7 0x33c00 ∧ FieldsR 25 .r0 0x32000 := by
  unfold FieldsR; decide

theorem witness_JalrLinksThenJumps : FieldsRR 26 .r7 .r4 0x35e00 ∧ ¬ (Reg.r0 = .r0 ∧ Reg.r1 = .r0) ∧ ¬ (Reg.r1 = .r0 ∧ Reg.r0 = .r0) ∧ Reg.r1 ≠ .r0 := by
  unfold FieldsRR; decide

theorem witness_OnlyTheHaltPatternHalts :
    step (core 0 0x34000 3 0 0) = .next { core 0 0x34000 3 0 0 with halted := true } ∧
    step (core 0 0x32000 3 0 0) = .next (core 0 0x32000 3 0 0) := by
  repeat' apply And.intro
  all_goals first | decide | rfl

theorem witness_RetReturnsToTheInstructionAfterTheCall : Reg.r1 ≠ .r0 ∧
    exec (.jalr .r1 .r1) { ready with pc := 8 } = .next { ready with pc := 8, regs := { ready.regs with r1 := 8 } } := by
  repeat' apply And.intro
  all_goals first | decide | rfl

theorem witness_OnlySwChangesMemory : (Instr.lw .r1 .r2 0).mnemonic ≠ .sw ∧
    exec (.lw .r1 .r2 0) ready = .next { ready with regs := { ready.regs with r1 := 0 } } := by
  repeat' apply And.intro
  all_goals first | decide | rfl

theorem witness_OnlyControlTransfersChangeThePc :
    functionalClass (Instr.sub .r1 .r1 .r1).mnemonic ∉ [FunctionalClass.branch, .jump, .ret, .jumpAndLink] ∧
    exec (.sub .r1 .r1 .r1) ready = .next { ready with regs := { ready.regs with r1 := 0 } } := by
  repeat' apply And.intro
  all_goals first | decide | rfl

theorem witness_OnlyTheDestinationRegisterChanges : recordDest (.sub .r1 .r1 .r1) ≠ some .r2 ∧ recordDest (.sw .r1 .r1 0) ≠ some .r1 ∧
    exec (.sub .r1 .r1 .r1) ready = .next { ready with regs := { ready.regs with r1 := 0 } } ∧
    exec (.sw .r3 .r2 0) ready = .next { ready with dmem := [(62, 0xFF), (63, 0xFF)] } := by
  repeat' apply And.intro
  all_goals first | decide | rfl

theorem witness_OnlyDivideAndMemoryInstructionsFault : ready.fault = none ∧
    exec (.divi .r1 .r2 0) ready = .next { ready with fault := some (.divideByZero (ready.pc - 2)) } ∧
    exec (.lw .r1 .r2 2) ready = .next { ready with fault := some (.invalidAddress 64) } := by
  repeat' apply And.intro
  all_goals first | decide | rfl

theorem witness_NoStepChangesTheProgram :
    step ready = .next { ready with pc := 2, regs := { ready.regs with r1 := 61 } } := rfl

theorem witness_StepEmitsTheRecordOfItsClass :
    step (core 0 0x22808 0 15 0) = .next { core 0 0x22808 0 15 0 with pc := 2, dmem := [(8, 15)] } ∧
    step (core 0 0x1A500 9 7 0) = .next { core 0 0x1A500 9 7 0 with pc := 2, fault := some (.divideByZero 0) } := by
  repeat' apply And.intro
  all_goals first | decide | rfl

/-- The running, the halted and the faulted core all meet the invariant. -/
theorem witness_EveryStepKeepsTheInvariant : ready.Inv ∧ (core 0 0x34000 0 0 0).Inv ∧ { ready with pc := 2 }.Inv ∧
    step ready = .next { ready with pc := 2, regs := { ready.regs with r1 := 61 } } := by
  refine ⟨⟨by decide, by decide, by decide, by decide, by decide, by decide, fun f h => by cases h⟩,
    ⟨by decide, by decide, by decide, by decide, by decide, by decide, fun f h => by cases h⟩,
    ⟨by decide, by decide, by decide, by decide, by decide, by decide, fun f h => by cases h⟩, rfl⟩

theorem witness_EveryHostActionKeepsTheInvariant : State.reset.Inv :=
  ⟨by decide, by decide, by decide, by decide, by decide, by decide, fun f h => by cases h⟩

/-- The same word -9 at address 4 under the two byte orders. -/
theorem witness_ByteOrderIsNotObservable : SameWords { ready with dmem := [(4, 0xF7), (5, 0xFF)] }
    { ready with dmem := [(4, 0xFF), (5, 0xF7)], params := { ready.params with byteOrder := .big } } := by
  refine ⟨rfl, rfl, rfl, rfl, rfl, rfl, rfl, by decide, fun adr h => ?_⟩
  have h3 : ¬ 4 = adr + 1 := by omega
  by_cases h4 : 4 = adr
  · subst h4; rfl
  · by_cases h5 : 5 = adr + 1
    · omega
    · have h6 : ¬ 5 = adr := by omega
      simp [Memory.readWord, Memory.getData, Memory.readByte, wordOfBytes, h3, h4, h5, h6, ready, core, State.reset,
        Machine.defaultByteOrder]

theorem witness_ResolveGivesTheOffsetOrFails : [("l".toList, 2 * 33)].lookup "l".toList = some (2 * 33) ∧
    fixupOperand [("l".toList, 2 * 33)] 1 (.label "l".toList) = .ok (.imm 62) ∧
    fixupOperand [("l".toList, 2 * 33)] 0 (.label "l".toList) = .error .branchOutOfRange ∧
    [("l".toList, 2 * 33)].lookup "k".toList = none := by decide

theorem witness_DataLineWritesOneWord : Memory.wf [] ∧
    dataLine State.reset.params [] "62 -3".toList = .ok [(62, 0xFD), (63, 0xFF)] ∧
    dataLine State.reset.params [(62, 1)] " ".toList = .ok [(62, 1)] := by decide

theorem witness_ResolvedBranchLandsOnItsTarget : resolve (65534 : Nat) (65536 : Nat) = .ok 0 ∧
    (({ ready with pc := 0 }.pc.toNat : Int) = (((65534 : Nat) : Int) + 2) % 65536) ∧
    ready.x .r1 = ready.x .r1 ∧ ready.x .r1 ≠ ready.x .r2 ∧ ready.x .r2 > ready.x .r1 ∧ ready.x .r3 < ready.x .r1 ∧
    ready.x .r1 ≥ ready.x .r1 ∧ ready.x .r3 ≤ ready.x .r1 := by decide

theorem witness_NopAndHaltExpansions : ["r1".toList] ≠ [] := by decide

theorem witness_MoviAndLliExpandAndAct : lookupRegister "r7".toList = some .r7 ∧ parseLiteral "0xffff".toList = some 0xFFFF ∧
    parseLiteral "-32768".toList = some (-32768) ∧ parseLiteral "0x10000".toList = some 0x10000 ∧
    parseLiteral "-1".toList = some (-1) ∧ parseLiteral "loop".toList = none ∧
    ((0 : Int) ≤ 0 ∧ (0xFFFF : Int) ≤ 0xFFFF) ∧ ¬ ((0 : Int) ≤ -1 ∧ (-1 : Int) ≤ 0xFFFF) ∧
    ¬ ((-32768 : Int) ≤ 0x10000 ∧ (0x10000 : Int) ≤ 65535) := by decide

theorem witness_ImmediateSlotIsRangeChecked : parseLiteral "-64".toList = some (-64) ∧ parseLiteral "0x3ff".toList = some 0x3FF ∧
    parseLiteral "loop".toList = none := by decide

/-- A Load that succeeds. -/
theorem witness_LoadInstallsOnlyLegalWords : load "0 7".toList "halt".toList State.reset =
    .ok { State.reset with imem := [0x34000], dmem := [(0, 7)] } := by decide

theorem witness_LegalProgramsNeverFaultInDecode : LegalProgram (core 0 0x34000 0 0 0).imem ∧ NoIllegalFault (core 0 0x34000 0 0 0) ∧
    step (core 0 0x34000 3 0 0) = .next { core 0 0x34000 3 0 0 with halted := true } := by
  refine ⟨fun w h => ?_, (fun w h => by cases h), rfl⟩
  obtain rfl : w = 0x34000 := List.mem_singleton.mp h
  exact ⟨.jalr .r0 .r0, by decide, by decide⟩

theorem witness_LoadEndsInALaunchState : load "2 5".toList "nop".toList State.reset =
      .ok { State.reset with imem := [0], dmem := [(2, 5)] } ∧
    assembleProgram "nop".toList = .ok [.add .r0 .r0 .r0] ∧ dataImage State.reset.params "2 5".toList = .ok [(2, 5)] ∧
    dataImage State.reset.params "\n".toList = .ok [] := by decide

theorem witness_FailedLoadChangesNothing : load [] "foo".toList ready = .error .unknownMnemonic ∧
    normalize "   ".toList = [] := by decide

end Sys2Proof.Tests
end

section
/-! PROOFS. `wrap16` is the one signed 16-bit representative of a residue class (spec/00_scope.md R9). -/

namespace Sys2Proof

/-- `wrap16` depends on the residue alone: numbers of one class have one pattern, and `wrap16` is its signed reading. -/
theorem wrap16_congr {m n : Int} (h : m % 65536 = n % 65536) : wrap16 m = wrap16 n := by
  rw [← toInt_toPattern, ← toInt_toPattern, toPattern_congr h]

/-- An integer of the signed 16-bit range is `wrap16` of every integer of its residue class. -/
theorem eq_wrap16_of_bounds_of_emod_eq {m n : Int} (lo : -32768 ≤ m) (hi : m ≤ 32767) (h : m % 65536 = n % 65536) :
    m = wrap16 n :=
  calc m = wrap16 m := (wrap16_of_bounds lo hi).symm
    _ = wrap16 n := wrap16_congr h

/-- Settles O1: range and congruence are laws of `wrap16`, and uniqueness holds because `wrap16` fixes the range and is
constant on each residue class. -/
theorem wrap16IsTheUniqueRepresentative : Obligations.Wrap16IsTheUniqueRepresentative := by
  intro n
  obtain ⟨lo, hi⟩ := wrap16_bounds n
  exact ⟨⟨lo, hi, wrap16_emod n⟩, fun _ => eq_wrap16_of_bounds_of_emod_eq⟩

end Sys2Proof
end

section
/-! PROOFS. Register 0 is the constant 0 around every instruction (spec/10_state.md R21, R35). -/

namespace Sys2Proof

/-- Settles O2: register 0 is not stored, so it reads 0 in every state (`State.x_r0`), hence in the state before `exec`
and in the state it answers, whatever the instruction does. -/
theorem registerZeroReadsZeroAroundEveryInstruction : Obligations.RegisterZeroReadsZeroAroundEveryInstruction := by
  intro _ s t _
  exact ⟨Machine.State.x_r0 s, Machine.State.x_r0 t⟩

end Sys2Proof
end

section
/-! PROOFS. The pseudo-instructions `nop` and `halt` (spec/40_assembler_resolver.md R96 to R98). -/

namespace Sys2Proof

open Machine

/-- A program of one line without a label is what the line's expansion parses to, with no label to resolve
(spec/40_assembler_resolver.md R116). -/
theorem assembleProgram_of_single_line {text line name : Text} {operands : List Text} {lines : List RealLine}
    {staged : List Staged} (hline : normalize text = [line]) (hlabel : ':' ∉ line)
    (hparse : operandParse line = (name, operands)) (hexpand : expand name operands = .ok lines)
    (hreal : parseReals lines = .ok staged) (hsome : staged ≠ []) (hfits : staged.length ≤ imemMax) :
    assembleProgram text = fixupAll [] 0 staged := by
  have hasm : assembleLine ⟨[], []⟩ line = .ok ⟨staged, []⟩ := by
    simp [assembleLine, takeLabel, hlabel, hparse, hexpand, hreal, bind, Except.bind]
  simp [assembleProgram, assembleLines, hline, hasm, hsome, Nat.not_lt.mpr hfits, bind, Except.bind]

/-- A line with a pseudo mnemonic is the expansion of that pseudo-instruction (spec/40_assembler_resolver.md R96). -/
theorem expand_of_pseudoOf {name : Text} {p : Pseudo} (h : pseudoOf name = some p) (operands : List Text) :
    expand name operands = expandPseudo p operands := by
  simp only [expand, h]

theorem pseudoOf_nop : pseudoOf "nop".toList = some .nop := by decide

theorem pseudoOf_halt : pseudoOf "halt".toList = some .halt := by decide

/-- `nop` and `halt` have arity 0 (spec/40_assembler_resolver.md R96). -/
theorem expandPseudo_arityMismatch_of_ne_nil {p : Pseudo} (hp : p = .nop ∨ p = .halt) {operands : List Text}
    (h : operands ≠ []) : expandPseudo p operands = .error .arityMismatch := by
  cases operands with
  | nil => exact absurd rfl h
  | cons => obtain rfl | rfl := hp <;> rfl

/-- The real line of `nop` (spec/40_assembler_resolver.md R97) goes through the program part of Load. -/
theorem assembleProgram_nop : assembleProgram "nop".toList = .ok [.add .r0 .r0 .r0] :=
  calc assembleProgram "nop".toList
    _ = fixupAll [] 0 [⟨.add, [.reg .r0, .reg .r0, .reg .r0]⟩] :=
      assembleProgram_of_single_line (line := "nop".toList) (by decide) (by decide) (by decide)
        (expand_of_pseudoOf pseudoOf_nop []) (by decide) (by decide) (by decide)
    _ = .ok [.add .r0 .r0 .r0] := rfl

/-- The real line of `halt` (spec/40_assembler_resolver.md R98) goes through the program part of Load. -/
theorem assembleProgram_halt : assembleProgram "halt".toList = .ok [.jalr .r0 .r0] :=
  calc assembleProgram "halt".toList
    _ = fixupAll [] 0 [⟨.jalr, [.reg .r0, .reg .r0]⟩] :=
      assembleProgram_of_single_line (line := "halt".toList) (by decide) (by decide) (by decide)
        (expand_of_pseudoOf pseudoOf_halt []) (by decide) (by decide) (by decide)
    _ = .ok [.jalr .r0 .r0] := rfl

/-- An `add` whose destination is register 0 leaves the state: its one write is dropped (spec/10_state.md R22). -/
theorem exec_add_r0 (b c : Reg) (s : State) : exec (.add .r0 b c) s = .next s :=
  calc exec (.add .r0 b c) s
    _ = writeResult .r0 (s.x b + s.x c) s := rfl
    _ = .next (s.writeReg .r0 (s.x b + s.x c)) := writeResult_eq ..
    _ = .next s := by rw [State.writeReg_r0]

/-- Settles O53: each of the two texts is one line without a label, whose expansion is the real instruction; `nop` writes
register 0 only, so nothing; and both have arity 0. -/
theorem nopAndHaltExpansions : Obligations.NopAndHaltExpansions := by
  refine ⟨assembleProgram_nop, by decide, exec_add_r0 .r0 .r0, assembleProgram_halt, by decide, ?_⟩
  intro operands h
  rw [expand_of_pseudoOf pseudoOf_nop, expand_of_pseudoOf pseudoOf_halt]
  exact ⟨expandPseudo_arityMismatch_of_ne_nil (.inl rfl) h, expandPseudo_arityMismatch_of_ne_nil (.inr rfl) h⟩

end Sys2Proof
end

section
/-! PROOFS. The words with given fields: a word of format RRR or RRI is the packing of its fields, so it is the word of the one
instruction its opcode number selects (spec/30_encoding.md R61, R62, R73). -/

namespace Sys2Proof

open Machine

/-- The 3-bit pattern of a register is its index (spec/30_encoding.md R64). -/
theorem Reg.toNat_bits (r : Reg) : r.bits.toNat = r.index := by cases r <;> rfl

theorem Reg.eq_bits_of_toNat_eq_index {v : BitVec 3} {r : Reg} (h : v.toNat = r.index) : v = r.bits :=
  BitVec.eq_of_toNat_eq (h.trans r.toNat_bits.symm)

/-- A word whose opcode field is the number `n` has the 5-bit pattern of `n` there. -/
theorem opField_eq_of_toNat_eq {w : IWord} {n : Nat} (h : (opField w).toNat = n) : opField w = BitVec.ofNat 5 n := by
  rw [← h, BitVec.ofNat_toNat, BitVec.setWidth_eq]

theorem FieldsRRR.eq_packRRR {op : Nat} {a b c : Reg} {w : IWord} (h : FieldsRRR op a b c w) :
    w = packRRR (BitVec.ofNat 5 op) a b c := by
  obtain ⟨hop, ha, hb, hz, hc⟩ := h
  have hz' : w.extractLsb' 3 4 = 0#4 := BitVec.eq_of_toNat_eq hz
  calc w
    _ = opField w ++ w.extractLsb' 10 3 ++ w.extractLsb' 7 3 ++ w.extractLsb' 3 4 ++ w.extractLsb' 0 3 := word_eq_fields5 w
    _ = packRRR (BitVec.ofNat 5 op) a b c := by
      rw [opField_eq_of_toNat_eq hop, Reg.eq_bits_of_toNat_eq_index ha, Reg.eq_bits_of_toNat_eq_index hb, hz',
        Reg.eq_bits_of_toNat_eq_index hc, packRRR]

theorem FieldsRRI.eq_packRRI {op : Nat} {a b : Reg} {imm : Int} {w : IWord} (h : FieldsRRI op a b imm w) :
    w = packRRI (BitVec.ofNat 5 op) a b imm := by
  obtain ⟨hop, ha, hb, himm⟩ := h
  have himm' : w.extractLsb' 0 7 = BitVec.ofInt 7 imm := by rw [← himm, BitVec.ofInt_toInt]
  calc w
    _ = opField w ++ w.extractLsb' 10 3 ++ w.extractLsb' 7 3 ++ w.extractLsb' 0 7 := word_eq_fields4 w
    _ = packRRI (BitVec.ofNat 5 op) a b imm := by
      rw [opField_eq_of_toNat_eq hop, Reg.eq_bits_of_toNat_eq_index ha, Reg.eq_bits_of_toNat_eq_index hb, himm', packRRI]

/-- The immediate read from a 7-bit field is in the window (spec/30_encoding.md R65). -/
theorem FieldsRRI.imm_bounds {op : Nat} {a b : Reg} {imm : Int} {w : IWord} (h : FieldsRRI op a b imm w) :
    -64 ≤ imm ∧ imm ≤ 63 := by
  obtain ⟨-, -, -, rfl⟩ := h
  exact toInt7_bounds _

/-- When the opcode number `op` selects the RRR instruction `mk` both ways, every word with that number and these fields is the
word of `mk a b c`. -/
theorem FieldsRRR.isWordOf {op : Nat} {mk : Reg → Reg → Reg → Instr} {a b c : Reg} {w : IWord} (h : FieldsRRR op a b c w)
    (hdecode : ∀ v, (opField v).toNat = op → decode v = decodeRRR v mk)
    (hencode : encode (mk a b c) = packRRR (BitVec.ofNat 5 op) a b c) : IsWordOf w (mk a b c) := by
  refine ⟨?_, hencode.trans h.eq_packRRR.symm⟩
  calc decode w
    _ = decodeRRR w mk := hdecode w h.1
    _ = decodeRRR (packRRR (BitVec.ofNat 5 op) a b c) mk := by rw [← h.eq_packRRR]
    _ = .ok (mk a b c) := decodeRRR_pack ..

/-- When the opcode number `op` selects the RRI instruction `mk` both ways, every word with that number and these fields is the
word of `mk a b imm`. -/
theorem FieldsRRI.isWordOf {op : Nat} {mk : Reg → Reg → Int → Instr} {a b : Reg} {imm : Int} {w : IWord}
    (h : FieldsRRI op a b imm w) (hdecode : ∀ v, (opField v).toNat = op → decode v = decodeRRI v mk)
    (hencode : encode (mk a b imm) = packRRI (BitVec.ofNat 5 op) a b imm) : IsWordOf w (mk a b imm) := by
  obtain ⟨lo, hi⟩ := h.imm_bounds
  refine ⟨?_, hencode.trans h.eq_packRRI.symm⟩
  calc decode w
    _ = decodeRRI w mk := hdecode w h.1
    _ = decodeRRI (packRRI (BitVec.ofNat 5 op) a b imm) mk := by rw [← h.eq_packRRI]
    _ = .ok (mk a b imm) := decodeRRI_pack _ _ _ _ lo hi

end Sys2Proof
end

section
/-! PROOFS. The common effect of the ALU class: one register write and its frame (spec/10_state.md R22, 41_alu.md R132), and the
bits of the bitwise integer functions (spec/00_scope.md R10). -/

namespace Sys2Proof

open Machine

/-- The frame of a register write (spec/10_state.md R22). -/
theorem onlyRegChanges_writeReg (a : Reg) (n : Int) (s : State) : OnlyRegChanges a s (s.writeReg a n) :=
  ⟨fun _ hr => s.writeReg_readReg_of_ne n hr, s.writeReg_pc a n, fun _ => by rw [s.writeReg_dmem],
    ⟨s.writeReg_halted a n, s.writeReg_fault a n⟩, s.writeReg_imem a n, s.writeReg_params a n⟩

/-- An instruction whose meaning is `writeResult` completes with that write alone. -/
theorem completesWriting_of_exec_eq_writeResult {i : Instr} {a : Reg} {n : Int} {s : State}
    (h : exec i s = writeResult a n s) : CompletesWriting i a n s :=
  ⟨s.writeReg a n, h.trans (writeResult_eq a n s), s.writeReg_x_self n, onlyRegChanges_writeReg a n s⟩

/-- An instruction whose meaning is `writeResult` completes with the bits of the number written. -/
theorem completesWritingBits_of_exec_eq_writeResult {i : Instr} {a : Reg} {n : Int} {bit : Nat → Bool} {s : State}
    (h : exec i s = writeResult a n s) (hbit : ∀ k < 16, (toPattern n).getLsbD k = bit k) :
    CompletesWritingBits i a bit s := by
  refine ⟨s.writeReg a n, h.trans (writeResult_eq a n s), fun ha k hk => ?_, onlyRegChanges_writeReg a n s⟩
  rw [s.writeReg_readReg_self n ha, hbit k hk]

theorem getLsbD_toPattern_and16 (m n : Int) (k : Nat) :
    (toPattern (and16 m n)).getLsbD k = ((toPattern m).getLsbD k && (toPattern n).getLsbD k) := by
  rw [and16, toPattern_toInt, BitVec.getLsbD_and]

theorem getLsbD_toPattern_or16 (m n : Int) (k : Nat) :
    (toPattern (or16 m n)).getLsbD k = ((toPattern m).getLsbD k || (toPattern n).getLsbD k) := by
  rw [or16, toPattern_toInt, BitVec.getLsbD_or]

theorem getLsbD_toPattern_not16 (m : Int) {k : Nat} (hk : k < 16) :
    (toPattern (not16 m)).getLsbD k = !(toPattern m).getLsbD k := by
  rw [not16, toPattern_toInt, BitVec.getLsbD_not, decide_eq_true hk, Bool.true_and]

end Sys2Proof
end

section
/-! PROOFS. The ALU instructions between two registers or a register and an immediate (spec/41_alu.md R120 to R129). -/

namespace Sys2Proof

open Machine

/-- Settles O17: both words go through the opcode map, and the pattern of `and16` is the bitwise conjunction of the operands'
patterns. -/
theorem andWritesTheBitwiseConjunction : Obligations.AndWritesTheBitwiseConjunction := by
  refine ⟨fun _ _ _ _ h => h.isWordOf (fun _ hop => by simp only [decode, hop]) rfl, fun _ b c s => ?_,
    fun _ _ _ _ h => h.isWordOf (fun _ hop => by simp only [decode, hop]) rfl, fun _ b imm s => ?_⟩
  · refine completesWritingBits_of_exec_eq_writeResult (n := and16 (s.x b) (s.x c)) rfl fun k _ => ?_
    rw [getLsbD_toPattern_and16, s.toPattern_x, s.toPattern_x]
  · refine completesWritingBits_of_exec_eq_writeResult (n := and16 (s.x b) imm) rfl fun k _ => ?_
    rw [getLsbD_toPattern_and16, s.toPattern_x]

/-- Settles O18: both words go through the opcode map, and the pattern of `or16` is the bitwise disjunction of the operands'
patterns. -/
theorem orWritesTheBitwiseDisjunction : Obligations.OrWritesTheBitwiseDisjunction := by
  refine ⟨fun _ _ _ _ h => h.isWordOf (fun _ hop => by simp only [decode, hop]) rfl, fun _ b c s => ?_,
    fun _ _ _ _ h => h.isWordOf (fun _ hop => by simp only [decode, hop]) rfl, fun _ b imm s => ?_⟩
  · refine completesWritingBits_of_exec_eq_writeResult (n := or16 (s.x b) (s.x c)) rfl fun k _ => ?_
    rw [getLsbD_toPattern_or16, s.toPattern_x, s.toPattern_x]
  · refine completesWritingBits_of_exec_eq_writeResult (n := or16 (s.x b) imm) rfl fun k _ => ?_
    rw [getLsbD_toPattern_or16, s.toPattern_x]

/-- Settles O19: both words go through the opcode map, and `not16` complements each of the 16 bits of `and16` and `or16`. -/
theorem nandAndNorWriteTheComplements : Obligations.NandAndNorWriteTheComplements := by
  refine ⟨fun _ _ _ _ h => h.isWordOf (fun _ hop => by simp only [decode, hop]) rfl, fun _ b c s => ?_,
    fun _ _ _ _ h => h.isWordOf (fun _ hop => by simp only [decode, hop]) rfl, fun _ b c s => ?_⟩
  · refine completesWritingBits_of_exec_eq_writeResult (n := not16 (and16 (s.x b) (s.x c))) rfl fun k hk => ?_
    rw [getLsbD_toPattern_not16 _ hk, getLsbD_toPattern_and16, s.toPattern_x, s.toPattern_x]
  · refine completesWritingBits_of_exec_eq_writeResult (n := not16 (or16 (s.x b) (s.x c))) rfl fun k hk => ?_
    rw [getLsbD_toPattern_not16 _ hk, getLsbD_toPattern_or16, s.toPattern_x, s.toPattern_x]

/-- Settles O15: both words go through the opcode map, and both meanings are `writeResult` of the sum. -/
theorem addWritesTheWrappedSum : Obligations.AddWritesTheWrappedSum :=
  ⟨fun _ _ _ _ h => h.isWordOf (fun _ hop => by simp only [decode, hop]) rfl,
    fun _ _ _ _ => completesWriting_of_exec_eq_writeResult rfl,
    fun _ _ _ _ h => h.isWordOf (fun _ hop => by simp only [decode, hop]) rfl,
    fun _ _ _ _ => completesWriting_of_exec_eq_writeResult rfl⟩

/-- Settles O16: both words go through the opcode map, and both meanings are `writeResult` of the difference, the first source
the minuend. -/
theorem subWritesTheWrappedDifference : Obligations.SubWritesTheWrappedDifference :=
  ⟨fun _ _ _ _ h => h.isWordOf (fun _ hop => by simp only [decode, hop]) rfl,
    fun _ _ _ _ => completesWriting_of_exec_eq_writeResult rfl,
    fun _ _ _ _ h => h.isWordOf (fun _ hop => by simp only [decode, hop]) rfl,
    fun _ _ _ _ => completesWriting_of_exec_eq_writeResult rfl⟩

end Sys2Proof
end

section
/-! PROOFS. The multiply instructions (spec/42_muldiv.md R141, R142). -/

namespace Sys2Proof

open Machine

/-- The meaning of `mul`: one register write of the product (spec/42_muldiv.md R141). -/
theorem exec_mul (a b c : Reg) (s : State) : exec (.mul a b c) s = writeResult a (s.x b * s.x c) s := rfl

/-- The meaning of `muli`: one register write of the product, the immediate not reduced first (spec/42_muldiv.md R142). -/
theorem exec_muli (a b : Reg) (imm : Int) (s : State) : exec (.muli a b imm) s = writeResult a (s.x b * imm) s := rfl

/-- Settles O21: both words go through the opcode map, and both meanings are `writeResult` of the product, which wraps the
number and changes its register alone. -/
theorem mulWritesTheWrappedProduct : Obligations.MulWritesTheWrappedProduct := by
  refine ⟨fun _ _ _ _ h => ?mulWord, fun a b c s => ?mulEffect, fun _ _ _ _ h => ?muliWord, fun a b imm s => ?muliEffect⟩
  case mulWord => exact h.isWordOf (fun _ hop => by simp only [decode, hop]) rfl
  case mulEffect => exact completesWriting_of_exec_eq_writeResult (exec_mul a b c s)
  case muliWord => exact h.isWordOf (fun _ hop => by simp only [decode, hop]) rfl
  case muliEffect => exact completesWriting_of_exec_eq_writeResult (exec_muli a b imm s)

end Sys2Proof
end

section
/-! PROOFS. The memory instructions (spec/43_memory_ops.md R150, R151): an address check, then one register write or one word
write. -/

namespace Sys2Proof

open Machine

/-- The meaning of `lw`: the address check, then one register write of the word read (spec/43_memory_ops.md R150). -/
theorem exec_lw (a b : Reg) (imm : Int) (s : State) :
    exec (.lw a b imm) s = withWordAddress (s.x b + imm) s fun ea => s.writeReg a (s.memRead ea) := rfl

/-- The meaning of `sw`: the address check, then one word write of the register (spec/43_memory_ops.md R151). -/
theorem exec_sw (a b : Reg) (imm : Int) (s : State) :
    exec (.sw a b imm) s = withWordAddress (s.x b + imm) s fun ea => s.memWrite ea (s.x a) := rfl

theorem withWordAddress_of_isWordAddress {ea : Int} {s : State} (h : isWordAddress s.params ea = true) (k : Int → State) :
    withWordAddress ea s k = .next (k ea) := by
  obtain ⟨hinvalid, -⟩ | ⟨-, hnext⟩ := withWordAddress_cases ea s k
  · exact absurd (h.symm.trans hinvalid) Bool.noConfusion
  · exact hnext

/-- An instruction that begins with the address check records `InvalidAddress(EA)` and nothing else when the check fails
(spec/43_memory_ops.md R153, 60_exceptions.md R184). -/
theorem takesFault_of_exec_eq_withWordAddress {i : Instr} {ea : Int} {s : State} {k : Int → State}
    (hexec : exec i s = withWordAddress ea s k) (h : isWordAddress s.params ea = false) :
    TakesFault i (.invalidAddress ea) s := by
  obtain ⟨-, hfault⟩ | ⟨hvalid, -⟩ := withWordAddress_cases ea s k
  · exact hexec.trans hfault
  · exact absurd (hvalid.symm.trans h) Bool.noConfusion

/-- In a canonical memory a word reads the register that was stored there (spec/20_memory.md R46). -/
theorem memRead_memWrite_x_self {s : State} (ea : Int) (r : Reg) (h : s.dmem.wf) :
    (s.memWrite ea (s.x r)).memRead ea = s.x r := by
  rw [State.memRead, State.memWrite_dmem, State.memWrite_params, Memory.readWord_writeWord_self _ _ _ h, State.toPattern_x,
    State.x]

/-- A word write at an address that is not negative leaves every byte outside the word alone (spec/20_memory.md R45). -/
theorem readByte_memWrite_of_ne (s : State) {ea : Int} (v : Int) (hea : 0 ≤ ea) {adr : Nat} (hlo : (adr : Int) ≠ ea)
    (hhi : (adr : Int) ≠ ea + 1) : (s.memWrite ea v).dmem.readByte adr = s.dmem.readByte adr := by
  rw [State.memWrite_dmem]
  exact Memory.readByte_writeWord_of_ne _ _ _ (by omega) (by omega)

/-- Settles O27: at a valid word address `sw` is one word write, which leaves all bytes but the word's two and everything but
memory; at any other address the check faults. -/
theorem storeWordWritesOneWordOrFaults : Obligations.StoreWordWritesOneWordOrFaults := by
  refine ⟨fun _ _ _ _ h => ?word, fun a b imm s hea => ?effect, fun a b imm s hea => ?fault, fun _ _ _ _ _ => ?record⟩
  case word => exact h.isWordOf (fun _ hop => by simp only [decode, hop]) rfl
  case effect =>
    obtain ⟨hnonneg, -, -⟩ := (isWordAddress_iff _ _).mp hea
    refine ⟨s.memWrite (s.x b + imm) (s.x a), (exec_sw a b imm s).trans (withWordAddress_of_isWordAddress hea _),
      memRead_memWrite_x_self _ a, fun _ => readByte_memWrite_of_ne s _ hnonneg, ?_⟩
    exact ⟨s.memWrite_readReg _ _, s.memWrite_pc _ _, ⟨s.memWrite_halted _ _, s.memWrite_fault _ _⟩,
      ⟨s.memWrite_imem _ _, s.memWrite_params _ _⟩⟩
  case fault => exact takesFault_of_exec_eq_withWordAddress (exec_sw a b imm s) hea
  case record => rfl

/-- Settles O26: at a valid word address `lw` is `writeResult` of the word read, which changes its register alone; at any other
address the check faults. -/
theorem loadWordReadsOrFaults : Obligations.LoadWordReadsOrFaults := by
  refine ⟨fun _ _ _ _ h => ?word, fun a b imm s hea => ?effect, fun a b imm s hea => ?fault, fun _ _ _ _ _ => ?record⟩
  case word => exact h.isWordOf (fun _ hop => by simp only [decode, hop]) rfl
  case effect =>
    have hexec : exec (.lw a b imm) s = writeResult a (s.memRead (s.x b + imm)) s :=
      (exec_lw a b imm s).trans (withWordAddress_of_isWordAddress hea _)
    exact completesWriting_of_exec_eq_writeResult hexec
  case fault => exact takesFault_of_exec_eq_withWordAddress (exec_lw a b imm s) hea
  case record => rfl

end Sys2Proof
end

section
/-! PROOFS. The words of format RI7 with given fields: such a word is the packing of its fields, so it is the word of the one
instruction its opcode number selects (spec/30_encoding.md R61, R62, R73). -/

namespace Sys2Proof

open Machine

theorem FieldsRI7.eq_packRI7 {op : Nat} {a : Reg} {imm : Int} {w : IWord} (h : FieldsRI7 op a imm w) :
    w = packRI7 (BitVec.ofNat 5 op) a imm := by
  obtain ⟨hop, ha, hz, himm⟩ := h
  have hz' : w.extractLsb' 7 3 = 0#3 := BitVec.eq_of_toNat_eq hz
  have himm' : w.extractLsb' 0 7 = BitVec.ofInt 7 imm := by rw [← himm, BitVec.ofInt_toInt]
  calc w
    _ = opField w ++ w.extractLsb' 10 3 ++ w.extractLsb' 7 3 ++ w.extractLsb' 0 7 := word_eq_fields4 w
    _ = packRI7 (BitVec.ofNat 5 op) a imm := by
      rw [opField_eq_of_toNat_eq hop, Reg.eq_bits_of_toNat_eq_index ha, hz', himm', packRI7]

/-- The immediate read from a 7-bit field is in the window (spec/30_encoding.md R65). -/
theorem FieldsRI7.imm_bounds {op : Nat} {a : Reg} {imm : Int} {w : IWord} (h : FieldsRI7 op a imm w) :
    -64 ≤ imm ∧ imm ≤ 63 := by
  obtain ⟨-, -, -, rfl⟩ := h
  exact toInt7_bounds _

/-- When the opcode number `op` selects the RI7 instruction `mk` both ways, every word with that number and these fields is the
word of `mk a imm`. -/
theorem FieldsRI7.isWordOf {op : Nat} {mk : Reg → Int → Instr} {a : Reg} {imm : Int} {w : IWord} (h : FieldsRI7 op a imm w)
    (hdecode : ∀ v, (opField v).toNat = op → decode v = decodeRI7 v mk)
    (hencode : encode (mk a imm) = packRI7 (BitVec.ofNat 5 op) a imm) : IsWordOf w (mk a imm) := by
  obtain ⟨lo, hi⟩ := h.imm_bounds
  refine ⟨?_, hencode.trans h.eq_packRI7.symm⟩
  calc decode w
    _ = decodeRI7 w mk := hdecode w h.1
    _ = decodeRI7 (packRI7 (BitVec.ofNat 5 op) a imm) mk := by rw [← h.eq_packRI7]
    _ = .ok (mk a imm) := decodeRI7_pack _ _ _ lo hi

end Sys2Proof
end

section
/-! PROOFS. The common effect of a control transfer without a link: one pc write modulo 65536 and its frame
(spec/10_state.md R25, 44_control.md R160, R167). -/

namespace Sys2Proof

open Machine

/-- The frame of a pc write (spec/10_state.md R25). -/
theorem onlyPcChanges_setPc (n : Int) (s : State) : OnlyPcChanges s (s.setPc n) :=
  ⟨s.setPc_readReg n, fun _ => by rw [s.setPc_dmem], ⟨s.setPc_halted n, s.setPc_fault n⟩, s.setPc_imem n, s.setPc_params n⟩

/-- An instruction whose meaning is one pc write completes with that write alone. -/
theorem completesJumping_of_exec_eq_setPc {i : Instr} {n : Int} {s : State} (h : exec i s = .next (s.setPc n)) :
    CompletesJumping i n s :=
  ⟨s.setPc n, h, toNat_ofInt16 n, onlyPcChanges_setPc n s⟩

/-- An instruction whose meaning is `branchIf` on the condition `p` adds the offset to the pc exactly when `p` holds: a branch
that is not taken is the transfer by 0. -/
theorem completesJumping_of_exec_eq_branchIf {i : Instr} {p : Prop} [Decidable p] {imm : Int} {s : State}
    (h : exec i s = branchIf (decide p) imm s) : CompletesJumping i (s.pc.toNat + if p then imm else 0) s := by
  refine completesJumping_of_exec_eq_setPc ?_
  rw [h, branchIf_eq]
  simp only [decide_eq_true_eq]

end Sys2Proof
end

section
/-! PROOFS. The six conditional branches and `jmp` (spec/44_control.md R161 to R166, R170). -/

namespace Sys2Proof

open Machine

/-- The meaning of `beq` (spec/44_control.md R161). -/
theorem exec_beq (a b : Reg) (imm : Int) (s : State) :
    exec (.beq a b imm) s = branchIf (decide (s.x a = s.x b)) imm s := rfl

/-- The meaning of `bne` (spec/44_control.md R162). -/
theorem exec_bne (a b : Reg) (imm : Int) (s : State) :
    exec (.bne a b imm) s = branchIf (decide (s.x a ≠ s.x b)) imm s := rfl

/-- The meaning of `bgt`, the first register the left comparand (spec/44_control.md R163). -/
theorem exec_bgt (a b : Reg) (imm : Int) (s : State) :
    exec (.bgt a b imm) s = branchIf (decide (s.x a > s.x b)) imm s := rfl

/-- The meaning of `blt`, the first register the left comparand (spec/44_control.md R164). -/
theorem exec_blt (a b : Reg) (imm : Int) (s : State) :
    exec (.blt a b imm) s = branchIf (decide (s.x a < s.x b)) imm s := rfl

/-- The meaning of `bge`, the first register the left comparand (spec/44_control.md R165). -/
theorem exec_bge (a b : Reg) (imm : Int) (s : State) :
    exec (.bge a b imm) s = branchIf (decide (s.x a ≥ s.x b)) imm s := rfl

/-- The meaning of `ble`, the first register the left comparand (spec/44_control.md R166). -/
theorem exec_ble (a b : Reg) (imm : Int) (s : State) :
    exec (.ble a b imm) s = branchIf (decide (s.x a ≤ s.x b)) imm s := rfl

/-- The meaning of `jmp`: one pc write of the sum over the integers (spec/44_control.md R170). -/
theorem exec_jmp (a : Reg) (imm : Int) (s : State) :
    exec (.jmp a imm) s = .next (s.setPc (s.pc.toNat + s.x a + imm)) := by
  rw [Int.add_assoc]
  rfl

/-- Settles O31: both words go through the opcode map, and the two meanings are `branchIf` on equality and on inequality. -/
theorem beqAndBneBranchOnEquality : Obligations.BeqAndBneBranchOnEquality := by
  refine ⟨fun _ _ _ _ h => ?beqWord, fun a b imm s => ?beqEffect, fun _ _ _ _ h => ?bneWord, fun a b imm s => ?bneEffect⟩
  case beqWord => exact h.isWordOf (fun _ hop => by simp only [decode, hop]) rfl
  case beqEffect => exact completesJumping_of_exec_eq_branchIf (exec_beq a b imm s)
  case bneWord => exact h.isWordOf (fun _ hop => by simp only [decode, hop]) rfl
  case bneEffect => exact completesJumping_of_exec_eq_branchIf (exec_bne a b imm s)

/-- Settles O32: both words go through the opcode map, and the two meanings are `branchIf` on the strict signed orders. -/
theorem bgtAndBltBranchOnStrictOrder : Obligations.BgtAndBltBranchOnStrictOrder := by
  refine ⟨fun _ _ _ _ h => ?bgtWord, fun a b imm s => ?bgtEffect, fun _ _ _ _ h => ?bltWord, fun a b imm s => ?bltEffect⟩
  case bgtWord => exact h.isWordOf (fun _ hop => by simp only [decode, hop]) rfl
  case bgtEffect => exact completesJumping_of_exec_eq_branchIf (exec_bgt a b imm s)
  case bltWord => exact h.isWordOf (fun _ hop => by simp only [decode, hop]) rfl
  case bltEffect => exact completesJumping_of_exec_eq_branchIf (exec_blt a b imm s)

/-- Settles O33: both words go through the opcode map, and the two meanings are `branchIf` on the weak signed orders. -/
theorem bgeAndBleBranchOnWeakOrder : Obligations.BgeAndBleBranchOnWeakOrder := by
  refine ⟨fun _ _ _ _ h => ?bgeWord, fun a b imm s => ?bgeEffect, fun _ _ _ _ h => ?bleWord, fun a b imm s => ?bleEffect⟩
  case bgeWord => exact h.isWordOf (fun _ hop => by simp only [decode, hop]) rfl
  case bgeEffect => exact completesJumping_of_exec_eq_branchIf (exec_bge a b imm s)
  case bleWord => exact h.isWordOf (fun _ hop => by simp only [decode, hop]) rfl
  case bleEffect => exact completesJumping_of_exec_eq_branchIf (exec_ble a b imm s)

/-- Settles O34: the word goes through the opcode map, the meaning is one pc write of the sum, which reduces it modulo 65536 and
changes nothing else, and the record has the pc after the instruction. -/
theorem jmpAddsRegisterAndOffset : Obligations.JmpAddsRegisterAndOffset := by
  refine ⟨fun _ _ _ h => ?word, fun a imm s => ?effect, fun _ _ _ _ => ?record⟩
  case word => exact h.isWordOf (fun _ hop => by simp only [decode, hop]) rfl
  case effect => exact completesJumping_of_exec_eq_setPc (exec_jmp a imm s)
  case record => rfl

end Sys2Proof
end

section
/-! PROOFS. The step of a running core at a word that encodes an instruction (spec/30_encoding.md R80), and what a step leaves when
that instruction takes a fault (spec/60_exceptions.md R184). -/

namespace Sys2Proof

open Machine

/-- A fetch that gives a word finds a program. -/
theorem imem_ne_nil_of_fetch_eq_some {s : State} {w : IWord} (h : fetch s = some w) : s.imem ≠ [] := by
  obtain ⟨-, hw⟩ := fetch_eq_some.mp h
  exact List.ne_nil_of_mem (List.mem_of_getElem? hw)

/-- With neither latch set, a step runs the instruction it fetches, on the state after the fetch-advance. -/
theorem step_eq_exec_fetchAdvance {s : State} {w : IWord} {i : Instr} (hhalted : s.halted = false) (hfault : s.fault = none)
    (hfetch : fetch s = some w) (hdecode : decode w = .ok i) : step s = exec i (fetchAdvance s) := by
  have hprogram : s.imem ≠ [] := imem_ne_nil_of_fetch_eq_some hfetch
  simp [step, cycle, hprogram, hhalted, hfault, hfetch, hdecode]

/-- An instruction that takes a fault after the fetch-advance makes the step change the pc and the fault latch only. -/
theorem step_eq_next_of_takesFault {s : State} {w : IWord} {i : Instr} {f : Fault} (hhalted : s.halted = false)
    (hfault : s.fault = none) (hfetch : fetch s = some w) (hdecode : decode w = .ok i)
    (htakes : TakesFault i f (fetchAdvance s)) : step s = .next { s with pc := s.pc + 2, fault := some f } :=
  calc step s
    _ = exec i (fetchAdvance s) := step_eq_exec_fetchAdvance hhalted hfault hfetch hdecode
    _ = .next { fetchAdvance s with fault := some f } := htakes
    _ = .next { s with pc := s.pc + 2, fault := some f } := by rw [fetchAdvance_eq]

end Sys2Proof
end

section
/-! PROOFS. The divide-by-zero fault (spec/60_exceptions.md R181): the divisor test is the first act of the four DIVIDE
instructions. -/

namespace Sys2Proof

open Machine

/-- The meaning of `div`: the divisor test, then one register write of the quotient (spec/42_muldiv.md R143). -/
theorem exec_div (a b c : Reg) (s : State) : exec (.div a b c) s = divideResult tdiv a (s.x b) (s.x c) s := rfl

/-- The meaning of `divi`: the divisor test, then one register write of the quotient (spec/42_muldiv.md R144). -/
theorem exec_divi (a b : Reg) (imm : Int) (s : State) : exec (.divi a b imm) s = divideResult tdiv a (s.x b) imm s := rfl

/-- The meaning of `mod`: the divisor test, then one register write of the remainder (spec/42_muldiv.md R145). -/
theorem exec_mod (a b c : Reg) (s : State) : exec (.mod a b c) s = divideResult tmod a (s.x b) (s.x c) s := rfl

/-- The meaning of `modi`: the divisor test, then one register write of the remainder (spec/42_muldiv.md R146). -/
theorem exec_modi (a b : Reg) (imm : Int) (s : State) : exec (.modi a b imm) s = divideResult tmod a (s.x b) imm s := rfl

/-- An instruction that begins with the divisor test records its own address and nothing else when the divisor is 0
(spec/42_muldiv.md R148). -/
theorem takesFault_of_exec_eq_divideResult {i : Instr} {f : Int → Int → Int} {a : Reg} {m n : Int} {s : State}
    (hexec : exec i s = divideResult f a m n s) (h : n = 0) : TakesFault i (.divideByZero s.instrAddr) s := by
  obtain ⟨-, hfault⟩ | ⟨hne, -⟩ := divideResult_cases f a m n s
  · exact hexec.trans hfault
  · exact absurd h hne

theorem takesFault_of_dividesByZero {i : Instr} {s : State} (h : DividesByZero i s) :
    TakesFault i (.divideByZero s.instrAddr) s := by
  obtain ⟨a, b, c, rfl | rfl, hzero⟩ | ⟨a, b, rfl | rfl⟩ := h
  case inl.inl => exact takesFault_of_exec_eq_divideResult (exec_div a b c s) hzero
  case inl.inr => exact takesFault_of_exec_eq_divideResult (exec_mod a b c s) hzero
  case inr.inl => exact takesFault_of_exec_eq_divideResult (exec_divi a b 0 s) rfl
  case inr.inr => exact takesFault_of_exec_eq_divideResult (exec_modi a b 0 s) rfl

/-- Settles O25: the fetch-advance leaves the registers, so the divisor the instruction tests is still 0, and the address the
fault records, `pc - 2`, is the pc before the step. -/
theorem divideByZeroStepRecordsTheAddress : Obligations.DivideByZeroStepRecordsTheAddress := by
  intro s w i hhalted hfault heven hword hdecode hzero
  have hdivides : DividesByZero i (fetchAdvance s) := by
    simpa only [DividesByZero, fetchAdvance_x] using hzero
  have htakes : TakesFault i (.divideByZero s.pc) (fetchAdvance s) := by
    simpa only [instrAddr_fetchAdvance] using takesFault_of_dividesByZero hdivides
  exact step_eq_next_of_takesFault hhalted hfault (fetch_eq_some.mpr ⟨heven, hword⟩) hdecode htakes

end Sys2Proof
end

section
/-! PROOFS. The invalid-address fault (spec/60_exceptions.md R182): the address check is the first act of `lw` and `sw`. -/

namespace Sys2Proof

open Machine

/-- Settles O29: the fetch-advance leaves the registers and the parameters, so the address the instruction checks is the one of
the state before the step, and the failed check is the instruction's whole effect. -/
theorem invalidAddressStepRecordsTheAddress : Obligations.InvalidAddressStepRecordsTheAddress := by
  intro s w a b imm hhalted hfault heven hword hdecode hinvalid
  have hfetch : fetch s = some w := fetch_eq_some.mpr ⟨heven, hword⟩
  have hcheck : isWordAddress (fetchAdvance s).params ((fetchAdvance s).x b + imm) = false := by
    rwa [fetchAdvance_params, fetchAdvance_x]
  obtain hlw | hsw := hdecode
  · exact step_eq_next_of_takesFault hhalted hfault hfetch hlw
      (takesFault_of_exec_eq_withWordAddress (exec_lw a b imm _) hcheck)
  · exact step_eq_next_of_takesFault hhalted hfault hfetch hsw
      (takesFault_of_exec_eq_withWordAddress (exec_sw a b imm _) hcheck)

end Sys2Proof
end

section
/-! PROOFS. The words of the formats RR, R and RI10 with given fields: such a word is the packing of its fields, so it is the word of
the one instruction its opcode number selects (spec/30_encoding.md R61, R62, R73). -/

namespace Sys2Proof

open Machine

theorem FieldsRR.eq_packRR {op : Nat} {a b : Reg} {w : IWord} (h : FieldsRR op a b w) :
    w = packRR (BitVec.ofNat 5 op) a b := by
  obtain ⟨hop, ha, hb, hz⟩ := h
  have hz' : w.extractLsb' 0 7 = 0#7 := BitVec.eq_of_toNat_eq hz
  calc w
    _ = opField w ++ w.extractLsb' 10 3 ++ w.extractLsb' 7 3 ++ w.extractLsb' 0 7 := word_eq_fields4 w
    _ = packRR (BitVec.ofNat 5 op) a b := by
      rw [opField_eq_of_toNat_eq hop, Reg.eq_bits_of_toNat_eq_index ha, Reg.eq_bits_of_toNat_eq_index hb, hz', packRR]

theorem FieldsR.eq_packR {op : Nat} {a : Reg} {w : IWord} (h : FieldsR op a w) : w = packR (BitVec.ofNat 5 op) a := by
  obtain ⟨hop, ha, hz⟩ := h
  have hz' : w.extractLsb' 0 10 = 0#10 := BitVec.eq_of_toNat_eq hz
  calc w
    _ = opField w ++ w.extractLsb' 10 3 ++ w.extractLsb' 0 10 := word_eq_fields3 w
    _ = packR (BitVec.ofNat 5 op) a := by
      rw [opField_eq_of_toNat_eq hop, Reg.eq_bits_of_toNat_eq_index ha, hz', packR]

theorem FieldsRI10.eq_packRI10 {op : Nat} {a : Reg} {imm : Int} {w : IWord} (h : FieldsRI10 op a imm w) :
    w = packRI10 (BitVec.ofNat 5 op) a imm := by
  obtain ⟨hop, ha, himm⟩ := h
  have himm' : w.extractLsb' 0 10 = BitVec.ofInt 10 imm := by
    rw [← himm, BitVec.ofInt_natCast, BitVec.ofNat_toNat, BitVec.setWidth_eq]
  calc w
    _ = opField w ++ w.extractLsb' 10 3 ++ w.extractLsb' 0 10 := word_eq_fields3 w
    _ = packRI10 (BitVec.ofNat 5 op) a imm := by
      rw [opField_eq_of_toNat_eq hop, Reg.eq_bits_of_toNat_eq_index ha, himm', packRI10]

/-- The immediate read from a 10-bit field is in the window (spec/30_encoding.md R66). -/
theorem FieldsRI10.imm_bounds {op : Nat} {a : Reg} {imm : Int} {w : IWord} (h : FieldsRI10 op a imm w) :
    0 ≤ imm ∧ imm ≤ 0x3FF := by
  obtain ⟨-, -, rfl⟩ := h
  have := (w.extractLsb' 0 10).isLt
  omega

/-- When the opcode number `op` selects the RR instruction `mk` both ways, every word with that number and these fields is the
word of `mk a b`. -/
theorem FieldsRR.isWordOf {op : Nat} {mk : Reg → Reg → Instr} {a b : Reg} {w : IWord} (h : FieldsRR op a b w)
    (hdecode : ∀ v, (opField v).toNat = op → decode v = decodeRR v mk)
    (hencode : encode (mk a b) = packRR (BitVec.ofNat 5 op) a b) : IsWordOf w (mk a b) := by
  refine ⟨?_, hencode.trans h.eq_packRR.symm⟩
  calc decode w
    _ = decodeRR w mk := hdecode w h.1
    _ = decodeRR (packRR (BitVec.ofNat 5 op) a b) mk := by rw [← h.eq_packRR]
    _ = .ok (mk a b) := decodeRR_pack ..

/-- When the opcode number `op` selects the R instruction `mk` both ways, every word with that number and this field is the word
of `mk a`. -/
theorem FieldsR.isWordOf {op : Nat} {mk : Reg → Instr} {a : Reg} {w : IWord} (h : FieldsR op a w)
    (hdecode : ∀ v, (opField v).toNat = op → decode v = decodeR v mk)
    (hencode : encode (mk a) = packR (BitVec.ofNat 5 op) a) : IsWordOf w (mk a) := by
  refine ⟨?_, hencode.trans h.eq_packR.symm⟩
  calc decode w
    _ = decodeR w mk := hdecode w h.1
    _ = decodeR (packR (BitVec.ofNat 5 op) a) mk := by rw [← h.eq_packR]
    _ = .ok (mk a) := decodeR_pack ..

/-- When the opcode number `op` selects the RI10 instruction `mk` both ways, every word with that number and these fields is the
word of `mk a imm`. -/
theorem FieldsRI10.isWordOf {op : Nat} {mk : Reg → Int → Instr} {a : Reg} {imm : Int} {w : IWord}
    (h : FieldsRI10 op a imm w) (hdecode : ∀ v, (opField v).toNat = op → decode v = decodeRI10 v mk)
    (hencode : encode (mk a imm) = packRI10 (BitVec.ofNat 5 op) a imm) : IsWordOf w (mk a imm) := by
  obtain ⟨lo, hi⟩ := h.imm_bounds
  refine ⟨?_, hencode.trans h.eq_packRI10.symm⟩
  calc decode w
    _ = decodeRI10 w mk := hdecode w h.1
    _ = decodeRI10 (packRI10 (BitVec.ofNat 5 op) a imm) mk := by rw [← h.eq_packRI10]
    _ = .ok (mk a imm) := decodeRI10_pack _ _ _ lo hi

end Sys2Proof
end

section
/-! PROOFS. The round trip between instructions and words (spec/30_encoding.md R73, R74): a packed word has the fields it was packed
from, so decoding it gives the instruction back, and a word that decodes is the packing of its fields. -/

namespace Sys2Proof

open Machine

/-! ### A packed word has the fields it was packed from -/

theorem fieldsRRR_packRRR {op : Nat} (hop : op < 32) (a b c : Reg) :
    FieldsRRR op a b c (packRRR (BitVec.ofNat 5 op) a b c) := by
  simp only [FieldsRRR, packRRR, fields5_op, fields5_a, fields5_b, fields5_z, fields5_c, Reg.toNat_bits]
  simp [Nat.mod_eq_of_lt hop]

theorem fieldsRRI_packRRI {op : Nat} (hop : op < 32) (a b : Reg) {n : Int} (lo : -64 ≤ n) (hi : n ≤ 63) :
    FieldsRRI op a b n (packRRI (BitVec.ofNat 5 op) a b n) := by
  simp only [FieldsRRI, packRRI, fields4_op, fields4_a, fields4_b, fields4_t, Reg.toNat_bits, toInt_ofInt7 lo hi]
  simp [Nat.mod_eq_of_lt hop]

theorem fieldsRI7_packRI7 {op : Nat} (hop : op < 32) (a : Reg) {n : Int} (lo : -64 ≤ n) (hi : n ≤ 63) :
    FieldsRI7 op a n (packRI7 (BitVec.ofNat 5 op) a n) := by
  simp only [FieldsRI7, packRI7, fields4_op, fields4_a, fields4_b, fields4_t, Reg.toNat_bits, toInt_ofInt7 lo hi]
  simp [Nat.mod_eq_of_lt hop]

theorem fieldsRR_packRR {op : Nat} (hop : op < 32) (a b : Reg) : FieldsRR op a b (packRR (BitVec.ofNat 5 op) a b) := by
  simp only [FieldsRR, packRR, fields4_op, fields4_a, fields4_b, fields4_t, Reg.toNat_bits]
  simp [Nat.mod_eq_of_lt hop]

theorem fieldsR_packR {op : Nat} (hop : op < 32) (a : Reg) : FieldsR op a (packR (BitVec.ofNat 5 op) a) := by
  simp only [FieldsR, packR, fields3_op, fields3_a, fields3_u, Reg.toNat_bits]
  simp [Nat.mod_eq_of_lt hop]

theorem fieldsRI10_packRI10 {op : Nat} (hop : op < 32) (a : Reg) {n : Int} (lo : 0 ≤ n) (hi : n ≤ 0x3FF) :
    FieldsRI10 op a n (packRI10 (BitVec.ofNat 5 op) a n) := by
  simp only [FieldsRI10, packRI10, fields3_op, fields3_a, fields3_u, Reg.toNat_bits, toNat_ofInt10 lo hi]
  simp [Nat.mod_eq_of_lt hop]

/-! ### Well-formed operands (spec/30_encoding.md R74) -/

theorem immInRange_lui {n : Int} : immInRange .lui n = true ↔ 0 ≤ n ∧ n ≤ 0x3FF := by
  simp [immInRange]

theorem immInRange_of_ne_lui {m : Mnemonic} (h : m ≠ .lui) {n : Int} : immInRange m n = true ↔ -64 ≤ n ∧ n ≤ 63 := by
  simp [immInRange, h]

/-- With two registers and an immediate it is the immediate's window that decides. -/
theorem Instr.wellFormed_iff_of_operands_rri {i : Instr} {a b : Reg} {n : Int} (h : i.operands = [.reg a, .reg b, .imm n])
    (hm : i.mnemonic ≠ .lui) : i.wellFormed = true ↔ -64 ≤ n ∧ n ≤ 63 := by
  simp [Instr.wellFormed, h, operandOk, immInRange_of_ne_lui hm]

theorem Instr.wellFormed_jmp_iff {a : Reg} {n : Int} : (Instr.jmp a n).wellFormed = true ↔ -64 ≤ n ∧ n ≤ 63 := by
  simp [Instr.wellFormed, Instr.operands, Instr.mnemonic, operandOk, immInRange_of_ne_lui]

theorem Instr.wellFormed_lui_iff {a : Reg} {n : Int} : (Instr.lui a n).wellFormed = true ↔ 0 ≤ n ∧ n ≤ 0x3FF := by
  simp [Instr.wellFormed, Instr.operands, Instr.mnemonic, operandOk, immInRange_lui]

/-! ### The two directions -/

/-- Settles O5: the encoding is a packing, a packed word has its instruction's opcode number and fields, and such a word is the
word of that instruction. -/
theorem decodeOfEncodeIsTheInstruction : Obligations.DecodeOfEncodeIsTheInstruction := by
  intro i hi
  cases i with
  | add a b c | sub a b c | and a b c | or a b c | nand a b c | nor a b c | mul a b c | div a b c | mod a b c =>
    exact ((fieldsRRR_packRRR (by decide) a b c).isWordOf (fun _ hop => by simp only [decode, hop]) rfl).1
  | addi a b n | subi a b n | andi a b n | ori a b n | muli a b n | divi a b n | modi a b n | lw a b n | sw a b n
  | beq a b n | bne a b n | bgt a b n | blt a b n | bge a b n | ble a b n =>
    obtain ⟨lo, hn⟩ := (Instr.wellFormed_iff_of_operands_rri rfl (by nofun)).mp hi
    exact ((fieldsRRI_packRRI (by decide) a b lo hn).isWordOf (fun _ hop => by simp only [decode, hop]) rfl).1
  | jmp a n =>
    obtain ⟨lo, hn⟩ := Instr.wellFormed_jmp_iff.mp hi
    exact ((fieldsRI7_packRI7 (by decide) a lo hn).isWordOf (fun _ hop => by simp only [decode, hop]) rfl).1
  | ret a => exact ((fieldsR_packR (by decide) a).isWordOf (fun _ hop => by simp only [decode, hop]) rfl).1
  | jalr a b => exact ((fieldsRR_packRR (by decide) a b).isWordOf (fun _ hop => by simp only [decode, hop]) rfl).1
  | lui a n =>
    obtain ⟨lo, hn⟩ := Instr.wellFormed_lui_iff.mp hi
    exact ((fieldsRI10_packRI10 (by decide) a lo hn).isWordOf (fun _ hop => by simp only [decode, hop]) rfl).1

/-- A word that format RRR accepts is the encoding of what it reads, when the opcode number selects `mk` in `encode` too. -/
theorem encode_of_decodeRRR {op : Nat} {mk : Reg → Reg → Reg → Instr} {w : IWord} {i : Instr}
    (h : decodeRRR w mk = .ok i) (hop : (opField w).toNat = op) (hwf : ∀ a b c, (mk a b c).wellFormed = true)
    (hencode : ∀ a b c, encode (mk a b c) = packRRR (BitVec.ofNat 5 op) a b c) : i.wellFormed = true ∧ encode i = w := by
  obtain ⟨a, b, c, rfl, hw⟩ := packRRR_of_decode h
  rw [opField_eq_of_toNat_eq hop] at hw
  exact ⟨hwf a b c, (hencode a b c).trans hw⟩

/-- A word of format RRI is the encoding of what it reads, when the opcode number selects `mk` in `encode` too. -/
theorem encode_of_decodeRRI {op : Nat} {mk : Reg → Reg → Int → Instr} {w : IWord} {i : Instr}
    (h : decodeRRI w mk = .ok i) (hop : (opField w).toNat = op)
    (hwf : ∀ a b n, (mk a b n).wellFormed = true ↔ -64 ≤ n ∧ n ≤ 63)
    (hencode : ∀ a b n, encode (mk a b n) = packRRI (BitVec.ofNat 5 op) a b n) : i.wellFormed = true ∧ encode i = w := by
  obtain ⟨a, b, n, rfl, hw, hn⟩ := packRRI_of_decode h
  rw [opField_eq_of_toNat_eq hop] at hw
  exact ⟨(hwf a b n).mpr hn, (hencode a b n).trans hw⟩

/-- Settles O6: what a format reads, it reads from the word's fields, and the word is the packing of its fields. -/
theorem encodeOfDecodeIsTheWord : Obligations.EncodeOfDecodeIsTheWord := by
  intro w i h
  unfold decode at h
  split at h
  case h_1 hop | h_3 hop | h_5 hop | h_7 hop | h_9 hop | h_10 hop | h_11 hop | h_13 hop | h_15 hop =>
    exact encode_of_decodeRRR h hop (fun _ _ _ => rfl) fun _ _ _ => rfl
  case h_2 hop | h_4 hop | h_6 hop | h_8 hop | h_12 hop | h_14 hop | h_16 hop | h_17 hop | h_18 hop | h_19 hop | h_20 hop
      | h_21 hop | h_22 hop | h_23 hop | h_24 hop =>
    exact encode_of_decodeRRI h hop (fun _ _ _ => Instr.wellFormed_iff_of_operands_rri rfl (by nofun)) fun _ _ _ => rfl
  case h_25 hop =>
    obtain ⟨a, n, rfl, hw, hn⟩ := packRI7_of_decode h
    rw [opField_eq_of_toNat_eq hop] at hw
    exact ⟨Instr.wellFormed_jmp_iff.mpr hn, hw⟩
  case h_26 hop =>
    obtain ⟨a, rfl, hw⟩ := packR_of_decode h
    rw [opField_eq_of_toNat_eq hop] at hw
    exact ⟨rfl, hw⟩
  case h_27 hop =>
    obtain ⟨a, b, rfl, hw⟩ := packRR_of_decode h
    rw [opField_eq_of_toNat_eq hop] at hw
    exact ⟨rfl, hw⟩
  case h_28 hop =>
    obtain ⟨a, n, rfl, hw, hn⟩ := packRI10_of_decode h
    rw [opField_eq_of_toNat_eq hop] at hw
    exact ⟨Instr.wellFormed_lui_iff.mpr hn, hw⟩
  case h_29 => cases h

end Sys2Proof
end

section
/-! PROOFS. The opcode map (spec/30_encoding.md R62, R69): the mask of a row selects the opcode number and the bits that must be 0. -/

namespace Sys2Proof

open Machine

/-! ### From the row of the map to the decoder -/

/-- A field that the mask of a row covers is the row's. -/
theorem extractLsb'_eq_of_mask {w : IWord} {m : Mnemonic} (h : w &&& maskBits m = matchBits m) {lo len : Nat}
    (hmask : (maskBits m).extractLsb' lo len = BitVec.allOnes len) :
    w.extractLsb' lo len = (matchBits m).extractLsb' lo len := by
  rw [← h, BitVec.extractLsb'_and, hmask, BitVec.and_allOnes]

theorem opField_eq_of_mask {w : IWord} {m : Mnemonic} (h : w &&& maskBits m = matchBits m) :
    opField w = (matchBits m).extractLsb' 13 5 :=
  extractLsb'_eq_of_mask h (by cases m <;> decide)

/-- A word that the row of `m` selects decodes to an instruction of `m`: its opcode number is the row's, and the bits its format
wants to be 0 are. -/
theorem exists_decode_of_mask {w : IWord} {m : Mnemonic} (h : w &&& maskBits m = matchBits m) :
    ∃ i, decode w = .ok i ∧ i.mnemonic = m := by
  have hop := opField_eq_of_mask h
  cases m with
  | add | sub | and | or | nand | nor | mul | div | mod =>
    have hzero : w.extractLsb' 3 4 = 0#4 := extractLsb'_eq_of_mask h (by decide)
    simp [decode, hop, matchBits, decodeRRR, hzero, Instr.mnemonic]
  | addi | subi | andi | ori | muli | divi | modi | lw | sw | beq | bne | bgt | blt | bge | ble =>
    simp [decode, hop, matchBits, decodeRRI, Instr.mnemonic]
  | jmp =>
    have hzero : w.extractLsb' 7 3 = 0#3 := extractLsb'_eq_of_mask h (by decide)
    simp [decode, hop, matchBits, decodeRI7, hzero, Instr.mnemonic]
  | ret =>
    have hzero : w.extractLsb' 0 10 = 0#10 := extractLsb'_eq_of_mask h (by decide)
    simp [decode, hop, matchBits, decodeR, hzero, Instr.mnemonic]
  | jalr =>
    have hzero : w.extractLsb' 0 7 = 0#7 := extractLsb'_eq_of_mask h (by decide)
    simp [decode, hop, matchBits, decodeRR, hzero, Instr.mnemonic]
  | lui => simp [decode, hop, matchBits, decodeRI10, Instr.mnemonic]

/-! ### From an encoding to the row of the map -/

section

variable (op : BitVec 5) (a b c : Reg) (n : Int)

theorem packRRR_and_mask : packRRR op a b c &&& 0x3E078#18 = op ++ 0#13 := by
  apply BitVec.eq_of_getLsbD_eq
  intro k hk
  simp only [packRRR, BitVec.getLsbD_and, BitVec.getLsbD_append]
  interval_cases k <;> simp

theorem packRRI_and_mask : packRRI op a b n &&& 0x3E000#18 = op ++ 0#13 := by
  apply BitVec.eq_of_getLsbD_eq
  intro k hk
  simp only [packRRI, BitVec.getLsbD_and, BitVec.getLsbD_append]
  interval_cases k <;> simp

theorem packRI7_and_mask : packRI7 op a n &&& 0x3E380#18 = op ++ 0#13 := by
  apply BitVec.eq_of_getLsbD_eq
  intro k hk
  simp only [packRI7, BitVec.getLsbD_and, BitVec.getLsbD_append]
  interval_cases k <;> simp

theorem packR_and_mask : packR op a &&& 0x3E3FF#18 = op ++ 0#13 := by
  apply BitVec.eq_of_getLsbD_eq
  intro k hk
  simp only [packR, BitVec.getLsbD_and, BitVec.getLsbD_append]
  interval_cases k <;> simp

theorem packRR_and_mask : packRR op a b &&& 0x3E07F#18 = op ++ 0#13 := by
  apply BitVec.eq_of_getLsbD_eq
  intro k hk
  simp only [packRR, BitVec.getLsbD_and, BitVec.getLsbD_append]
  interval_cases k <;> simp

theorem packRI10_and_mask : packRI10 op a n &&& 0x3E000#18 = op ++ 0#13 := by
  apply BitVec.eq_of_getLsbD_eq
  intro k hk
  simp only [packRI10, BitVec.getLsbD_and, BitVec.getLsbD_append]
  interval_cases k <;> simp

end

/-- The row of its mnemonic selects the word of every instruction. -/
theorem encode_and_maskBits (i : Instr) : encode i &&& maskBits i.mnemonic = matchBits i.mnemonic := by
  cases i with
  | add a b c | sub a b c | and a b c | or a b c | nand a b c | nor a b c | mul a b c | div a b c | mod a b c =>
    exact packRRR_and_mask _ a b c
  | addi a b n | subi a b n | andi a b n | ori a b n | muli a b n | divi a b n | modi a b n | lw a b n | sw a b n
  | beq a b n | bne a b n | bgt a b n | blt a b n | bge a b n | ble a b n => exact packRRI_and_mask _ a b n
  | jmp a n => exact packRI7_and_mask _ a n
  | ret a => exact packR_and_mask _ a
  | jalr a b => exact packRR_and_mask _ a b
  | lui a n => exact packRI10_and_mask _ a n

/-- Settles O7: a word that decodes is the encoding of its instruction, which the row selects; and a word that the row selects has
the row's opcode number and zero bits. -/
theorem decodeFollowsTheOpcodeMap : Obligations.DecodeFollowsTheOpcodeMap := by
  intro w m
  refine ⟨?_, exists_decode_of_mask⟩
  rintro ⟨i, hi, rfl⟩
  obtain ⟨-, rfl⟩ := encodeOfDecodeIsTheWord w i hi
  exact encode_and_maskBits i

/-! ### The reserved opcodes -/

section

variable {w : IWord}

theorem decodeRRR_ne_reservedOpcode (mk : Reg → Reg → Reg → Instr) : decodeRRR w mk ≠ .error .reservedOpcode := by
  unfold decodeRRR; split <;> nofun

theorem decodeRRI_ne_reservedOpcode (mk : Reg → Reg → Int → Instr) : decodeRRI w mk ≠ .error .reservedOpcode := nofun

theorem decodeRI7_ne_reservedOpcode (mk : Reg → Int → Instr) : decodeRI7 w mk ≠ .error .reservedOpcode := by
  unfold decodeRI7; split <;> nofun

theorem decodeRR_ne_reservedOpcode (mk : Reg → Reg → Instr) : decodeRR w mk ≠ .error .reservedOpcode := by
  unfold decodeRR; split <;> nofun

theorem decodeR_ne_reservedOpcode (mk : Reg → Instr) : decodeR w mk ≠ .error .reservedOpcode := by
  unfold decodeR; split <;> nofun

theorem decodeRI10_ne_reservedOpcode (mk : Reg → Int → Instr) : decodeRI10 w mk ≠ .error .reservedOpcode := nofun

end

/-- Settles O8: each of the opcode numbers 0 to 27 goes to a format, which rejects words only for bits that must be 0; every other
number goes to the reserved-opcode error. -/
theorem reservedOpcodesAreRejected : Obligations.ReservedOpcodesAreRejected := by
  intro w
  change _ ↔ 28 ≤ (opField w).toNat
  unfold decode
  split
  case h_1 | h_3 | h_5 | h_7 | h_9 | h_10 | h_11 | h_13 | h_15 =>
    exact iff_of_false (decodeRRR_ne_reservedOpcode _) (by omega)
  case h_2 | h_4 | h_6 | h_8 | h_12 | h_14 | h_16 | h_17 | h_18 | h_19 | h_20 | h_21 | h_22 | h_23 | h_24 =>
    exact iff_of_false (decodeRRI_ne_reservedOpcode _) (by omega)
  case h_25 => exact iff_of_false (decodeRI7_ne_reservedOpcode _) (by omega)
  case h_26 => exact iff_of_false (decodeR_ne_reservedOpcode _) (by omega)
  case h_27 => exact iff_of_false (decodeRR_ne_reservedOpcode _) (by omega)
  case h_28 => exact iff_of_false (decodeRI10_ne_reservedOpcode _) (by omega)
  case h_29 => exact iff_of_true rfl (by grind)

/-- Settles O9, by evaluation of the decoder on the eighteen words. -/
theorem sampleWordsDecode : Obligations.SampleWordsDecode := by
  unfold Obligations.SampleWordsDecode
  decide

end Sys2Proof
end

section
/-! PROOFS. The two write operations by themselves: a register write (spec/10_state.md R22) and a pc write (spec/10_state.md R25). -/

namespace Sys2Proof

open Machine

/-- Settles O3: a write gives the register `wrap16` of the number, a write to register 0 is dropped, and the frame is that of
`writeReg`. -/
theorem registerWriteStoresWrap16 : Obligations.RegisterWriteStoresWrap16 := by
  intro s r n
  refine ⟨s.writeReg_x_self n, ?_, onlyRegChanges_writeReg r n s⟩
  rintro rfl
  exact s.writeReg_r0 n

/-- Settles O4: the 16-bit pattern of an integer is its residue modulo 65536, and `incrementPc` is a `setPc`. -/
theorem pcWriteIsModulo65536 : Obligations.PcWriteIsModulo65536 :=
  ⟨fun s n => ⟨toNat_ofInt16 n, onlyPcChanges_setPc n s⟩, fun _ _ => toNat_ofInt16 _⟩

end Sys2Proof
end

section
/-! PROOFS. `lui` (spec/41_alu.md R130). -/

namespace Sys2Proof

open Machine

/-- The meaning of `lui`: one register write of the immediate times 64 (spec/41_alu.md R130). -/
theorem exec_lui (a : Reg) (imm : Int) (s : State) : exec (.lui a imm) s = writeResult a (imm * 64) s := rfl

/-- Times 64 puts the bits of a number above six zeros. -/
theorem getLsbD_toPattern_natCast_mul_64 (n : Nat) {k : Nat} (hk : k < 16) :
    (toPattern ((n : Int) * 64)).getLsbD k = (decide (6 ≤ k) && n.testBit (k - 6)) := by
  have hnat : toPattern ((n : Int) * 64) = BitVec.ofNat 16 (n * 2 ^ 6) := BitVec.ofInt_natCast ..
  rw [hnat, BitVec.getLsbD_ofNat, decide_eq_true hk, Bool.true_and, Nat.testBit_mul_two_pow]

/-- Settles O20: the words go through the opcode map, the meaning is `writeResult` of the product, and times 64 is a shift by six
bits. -/
theorem luiWritesTheShiftedImmediate : Obligations.LuiWritesTheShiftedImmediate := by
  refine ⟨fun _ _ _ h => ?word, fun a imm s => ?value, fun a imm s hlo _ => ?bits⟩
  case word => exact h.isWordOf (fun _ hop => by simp only [decode, hop]) rfl
  case value => exact completesWriting_of_exec_eq_writeResult (exec_lui a imm s)
  case bits =>
    refine completesWritingBits_of_exec_eq_writeResult (exec_lui a imm s) fun k hk => ?_
    obtain ⟨n, rfl⟩ := Int.eq_ofNat_of_zero_le hlo
    exact getLsbD_toPattern_natCast_mul_64 n hk

end Sys2Proof
end

section
/-! PROOFS. Division: the rounding toward zero (spec/42_muldiv.md R140), and the four DIVIDE instructions
(spec/42_muldiv.md R143 to R148). -/

namespace Sys2Proof

open Machine

/-- The remainder of the spec is the library's remainder of the division rounded toward zero. -/
theorem tmod_eq (m n : Int) : tmod m n = Int.tmod m n := (Int.tmod_def m n).symm

/-- The remainder is 0 or has the sign of the dividend. -/
theorem tmod_eq_zero_or_neg_iff (m n : Int) : tmod m n = 0 ∨ (tmod m n < 0 ↔ m < 0) := by
  rw [tmod_eq]
  obtain hm | hm := Int.lt_or_le m 0
  · have hneg : 0 ≤ (-m).tmod n := Int.tmod_nonneg n (by omega)
    rw [Int.neg_tmod] at hneg
    omega
  · have hnonneg : 0 ≤ m.tmod n := Int.tmod_nonneg n hm
    omega

/-- Settles O24: in absolute values the division is the natural one, and the remainder takes the dividend's sign. -/
theorem divisionTruncatesTowardZero : Obligations.DivisionTruncatesTowardZero := by
  refine ⟨fun m n hn => ⟨?sum, ?product, ?remainder, tmod_eq_zero_or_neg_iff m n⟩, by decide⟩
  case sum =>
    rw [tmod]
    omega
  case product =>
    rw [tdiv, Int.natAbs_mul, Int.natAbs_tdiv]
    exact Nat.mul_div_le _ _
  case remainder =>
    rw [tmod_eq, Int.natAbs_tmod]
    exact Nat.mod_lt _ (Int.natAbs_pos.mpr hn)

/-- An instruction that begins with the divisor test completes with its one register write when the divisor is not 0
(spec/42_muldiv.md R148). -/
theorem completesWriting_of_exec_eq_divideResult {i : Instr} {f : Int → Int → Int} {a : Reg} {m n : Int} {s : State}
    (hexec : exec i s = divideResult f a m n s) (h : n ≠ 0) : CompletesWriting i a (f m n) s := by
  obtain ⟨hzero, -⟩ | ⟨-, hwrite⟩ := divideResult_cases f a m n s
  · exact absurd hzero h
  · exact completesWriting_of_exec_eq_writeResult (hexec.trans hwrite)

/-- Settles O22: both words go through the opcode map, and both meanings are the divisor test before the write of the quotient. -/
theorem divWritesTheQuotient : Obligations.DivWritesTheQuotient := by
  refine ⟨fun _ _ _ _ h => ?divWord, fun a b c s h => ?div, fun a b c s h => ?divZero, fun _ _ _ _ h => ?diviWord,
    fun a b imm s h => ?divi, fun a b s => ?diviZero⟩
  case divWord => exact h.isWordOf (fun _ hop => by simp only [decode, hop]) rfl
  case div => exact completesWriting_of_exec_eq_divideResult (exec_div a b c s) h
  case divZero => exact takesFault_of_exec_eq_divideResult (exec_div a b c s) h
  case diviWord => exact h.isWordOf (fun _ hop => by simp only [decode, hop]) rfl
  case divi => exact completesWriting_of_exec_eq_divideResult (exec_divi a b imm s) h
  case diviZero => exact takesFault_of_exec_eq_divideResult (exec_divi a b 0 s) rfl

/-- Settles O23: both words go through the opcode map, and both meanings are the divisor test before the write of the remainder. -/
theorem modWritesTheRemainder : Obligations.ModWritesTheRemainder := by
  refine ⟨fun _ _ _ _ h => ?modWord, fun a b c s h => ?mod, fun a b c s h => ?modZero, fun _ _ _ _ h => ?modiWord,
    fun a b imm s h => ?modi, fun a b s => ?modiZero⟩
  case modWord => exact h.isWordOf (fun _ hop => by simp only [decode, hop]) rfl
  case mod => exact completesWriting_of_exec_eq_divideResult (exec_mod a b c s) h
  case modZero => exact takesFault_of_exec_eq_divideResult (exec_mod a b c s) h
  case modiWord => exact h.isWordOf (fun _ hop => by simp only [decode, hop]) rfl
  case modi => exact completesWriting_of_exec_eq_divideResult (exec_modi a b imm s) h
  case modiZero => exact takesFault_of_exec_eq_divideResult (exec_modi a b 0 s) rfl

end Sys2Proof
end

section
/-! PROOFS. Word addresses (spec/20_memory.md R43), and the load after a store (spec/20_memory.md R46). -/

namespace Sys2Proof

open Machine

/-- Settles O28: a negative, a too large and an odd address each miss one of the three conditions of a valid word address. -/
theorem misalignedOrOutOfRangeAddressesFault : Obligations.MisalignedOrOutOfRangeAddressesFault := by
  refine ⟨isWordAddress_iff, fun s a b imm h => ?_⟩
  have hinvalid : isWordAddress s.params (s.x b + imm) = false := by
    rw [← Bool.not_eq_true, isWordAddress_iff]
    omega
  exact ⟨takesFault_of_exec_eq_withWordAddress (exec_lw a b imm s) hinvalid,
    takesFault_of_exec_eq_withWordAddress (exec_sw a b imm s) hinvalid⟩

/-- Settles O30: the store leaves the parameters, so the address is still valid, and the word there is the one stored. -/
theorem loadAfterStoreGivesTheStoredValue : Obligations.LoadAfterStoreGivesTheStoredValue := by
  intro s t a b d e imm off hwf hea hexec hsame
  have hstore : exec (.sw a b imm) s = .next (s.memWrite (s.x b + imm) (s.x a)) :=
    (exec_sw a b imm s).trans (withWordAddress_of_isWordAddress hea _)
  obtain rfl := Host.Outcome.next.inj (hstore.symm.trans hexec)
  obtain ⟨-, hload, -, -⟩ := loadWordReadsOrFaults
  have hlw := hload d e off (s.memWrite (s.x b + imm) (s.x a)) (hsame ▸ hea)
  rwa [hsame, memRead_memWrite_x_self _ a hwf] at hlw

end Sys2Proof
end

section
/-! PROOFS. The register jumps `ret` and `jalr`, the halt pattern, and the return from a call (spec/44_control.md R171 to R176). -/

namespace Sys2Proof

open Machine

/-- The meaning of `ret`: one pc write of the register (spec/44_control.md R171). -/
theorem exec_ret (a : Reg) (s : State) : exec (.ret a) s = .next (s.setPc (s.x a)) := rfl

/-- A pc write of a register gives the pc its pattern (spec/44_control.md R171). -/
theorem setPc_x_pc (s t : State) (a : Reg) : (s.setPc (t.x a)).pc = t.readReg a := t.toPattern_x a

/-- Settles O35: the words go through the opcode map, and the meaning is one pc write of the register's value, whose pattern is the
register's. -/
theorem retJumpsToTheRegister : Obligations.RetJumpsToTheRegister := by
  refine ⟨fun _ _ h => h.isWordOf (fun _ hop => by simp only [decode, hop]) rfl, fun a s => ?_⟩
  exact ⟨completesJumping_of_exec_eq_setPc (exec_ret a s), _, exec_ret a s, setPc_x_pc s s a⟩

/-- The meaning of `jalr` but for the halt pattern (spec/44_control.md R172). -/
theorem exec_jalr_of_not_halt {a b : Reg} (h : ¬ (a = .r0 ∧ b = .r0)) (s : State) :
    exec (.jalr a b) s = .next (linkAndJump a b s) :=
  congrArg Host.Outcome.next (if_neg h)

/-- The meaning of the halt pattern (spec/44_control.md R176). -/
theorem exec_jalr_halt (s : State) : exec (.jalr .r0 .r0) s = .next (linkAndJump .r0 .r0 s).setHalted := rfl

/-- The registers after `jalr` are those after the link is written: the pc write that follows leaves them. -/
theorem linkAndJump_readReg (a b q : Reg) (s : State) :
    (linkAndJump a b s).readReg q = (s.writeReg a (s.pc.toNat : Int)).readReg q :=
  State.setPc_readReg ..

/-- The link register has the pattern of the pc (spec/44_control.md R172). -/
theorem linkAndJump_readReg_link {a : Reg} (b : Reg) (s : State) (h : a ≠ .r0) : (linkAndJump a b s).readReg a = s.pc := by
  rw [linkAndJump_readReg, s.writeReg_readReg_self _ h, toPattern_toNat]

theorem linkAndJump_readReg_of_ne {a q : Reg} (b : Reg) (s : State) (h : q ≠ a) :
    (linkAndJump a b s).readReg q = s.readReg q := by
  rw [linkAndJump_readReg, s.writeReg_readReg_of_ne _ h]

/-- Settles O36: `linkAndJump` writes the link, then the target, read from the registers as the link left them. -/
theorem jalrLinksThenJumps : Obligations.JalrLinksThenJumps := by
  refine ⟨fun _ _ _ h => h.isWordOf (fun _ hop => by simp only [decode, hop]) rfl, fun a b s hjump => ?_⟩
  obtain ⟨-, hdmem, hhalted, hfault, himem, hparams⟩ := linkAndJump_frame a b s
  refine ⟨linkAndJump a b s, exec_jalr_of_not_halt hjump s, fun ha => ?link, fun _ hq => linkAndJump_readReg_of_ne b s hq,
    ?target, fun _ => by rw [hdmem], ⟨hhalted, hfault⟩, himem, hparams⟩
  case link => rw [State.x, linkAndJump_readReg_link b s ha, ← toInt_toPattern, toPattern_toNat]
  case target =>
    have hsame : (a = b ∧ a ≠ .r0) ↔ a = b := and_iff_left_of_imp fun hab ha => hjump ⟨ha, hab ▸ ha⟩
    simp only [linkAndJump_pc, hsame]

/-- Settles O37: a link in register 0 is dropped, so with the latch set `linkAndJump` has changed the pc alone. -/
theorem haltPatternSetsTheLatch : Obligations.HaltPatternSetsTheLatch := by
  refine ⟨⟨by decide, by decide⟩, fun s => ?_⟩
  obtain ⟨hregs, hdmem, -, hfault, himem, hparams⟩ := linkAndJump_frame .r0 .r0 s
  exact ⟨_, exec_jalr_halt s, rfl, fun _ => congrArg (RegFile.read · _) hregs, fun _ => congrArg (Memory.readByte · _) hdmem,
    hfault, himem, hparams⟩

/-- Settles O39: the call leaves the pc in the link register, and `ret` gives the pc that register's pattern. -/
theorem retReturnsToTheInstructionAfterTheCall : Obligations.RetReturnsToTheInstructionAfterTheCall := by
  intro s t link target hlink hcall
  obtain rfl := Host.Outcome.next.inj ((exec_jalr_of_not_halt (fun h => hlink h.1) s).symm.trans hcall)
  refine ⟨_, exec_ret link _, ?_, State.setPc_readReg _ _⟩
  rw [setPc_x_pc, linkAndJump_readReg_link target s hlink]

end Sys2Proof
end

section
/-! PROOFS. The resolver's offsets (spec/40_assembler_resolver.md R105, R106), and where a branch with such an offset lands
(spec/44_control.md R160, R170). -/

namespace Sys2Proof

open Machine

/-- What the resolver answers (spec/40_assembler_resolver.md R105). -/
theorem resolve_eq (b t : Int) : resolve b t =
    if -64 ≤ t - (b + 2) ∧ t - (b + 2) ≤ 63 then .ok (t - (b + 2)) else .error .branchOutOfRange := rfl

theorem resolve_eq_ok_iff {b t off : Int} : resolve b t = .ok off ↔ off = t - (b + 2) ∧ -64 ≤ off ∧ off ≤ 63 := by
  rw [resolve_eq]
  split
  · next h =>
    constructor
    · rintro ⟨⟩
      exact ⟨rfl, h⟩
    · rintro ⟨rfl, -⟩
      rfl
  · next h =>
    refine iff_of_false nofun ?_
    rintro ⟨rfl, h'⟩
    exact h h'

/-- Label fixup of a label that is not defined (spec/40_assembler_resolver.md R106). -/
theorem fixupOperand_label_of_lookup_eq_none {labels : List (Text × Nat)} {name : Text} (h : labels.lookup name = none)
    (j : Nat) : fixupOperand labels j (.label name) = .error .undefinedLabel := by
  simp only [fixupOperand, h]

/-- Label fixup of a label that is defined: the resolver's offset (spec/40_assembler_resolver.md R106). -/
theorem fixupOperand_label_of_lookup_eq_some {labels : List (Text × Nat)} {name : Text} {target : Nat}
    (h : labels.lookup name = some target) (j : Nat) :
    fixupOperand labels j (.label name) = (resolve (2 * j) target).map .imm := by
  simp only [fixupOperand, h]
  cases resolve (2 * j) target <;> rfl

/-- Settles O51: the resolver is its defining equation, and `2k - (2j + 2)` is in the window exactly for the `k` stated. -/
theorem resolveGivesTheOffsetOrFails : Obligations.ResolveGivesTheOffsetOrFails := by
  refine ⟨resolve_eq, fun labels name j k hlookup => ?_,
    fun labels name j hlookup => fixupOperand_label_of_lookup_eq_none hlookup j⟩
  have hoffset : ((2 * k : Nat) : Int) - (2 * j + 2) = 2 * k - 2 * j - 2 := by omega
  rw [fixupOperand_label_of_lookup_eq_some hlookup, resolve_eq, hoffset]
  by_cases hwindow : (j : Int) - 31 ≤ k ∧ (k : Int) ≤ j + 32
  · rw [if_pos hwindow, if_pos (by omega)]
    rfl
  · rw [if_neg hwindow, if_neg (by omega)]
    rfl

/-- A jump to a number is a jump to every number of its residue class. -/
theorem CompletesJumping.congr {i : Instr} {m n : Int} {s : State} (h : CompletesJumping i m s)
    (hmn : m % 65536 = n % 65536) : CompletesJumping i n s := by
  obtain ⟨t, hexec, hpc, hframe⟩ := h
  exact ⟨t, hexec, hpc.trans hmn, hframe⟩

/-- Settles O52: a taken branch adds the offset to the pc, `branchAddr + 2` up to multiples of 65536, and so ends at the target up
to such a multiple. -/
theorem resolvedBranchLandsOnItsTarget : Obligations.ResolvedBranchLandsOnItsTarget := by
  intro s branchAddr target off a b hresolve hpc
  obtain ⟨rfl, -⟩ := resolve_eq_ok_iff.mp hresolve
  obtain ⟨-, beq, -, bne⟩ := beqAndBneBranchOnEquality
  obtain ⟨-, bgt, -, blt⟩ := bgtAndBltBranchOnStrictOrder
  obtain ⟨-, bge, -, ble⟩ := bgeAndBleBranchOnWeakOrder
  obtain ⟨-, jmp, -⟩ := jmpAddsRegisterAndOffset
  refine ⟨fun h => (beq a b _ s).congr ?_, fun h => (bne a b _ s).congr ?_, fun h => (bgt a b _ s).congr ?_,
    fun h => (blt a b _ s).congr ?_, fun h => (bge a b _ s).congr ?_, fun h => (ble a b _ s).congr ?_,
    (jmp a _ s).congr (by omega)⟩
  all_goals rw [if_pos h]; omega

end Sys2Proof
end

section
/-! PROOFS. The cases of a step (spec/30_encoding.md R80, R81), and the progress of an enabled one. -/

namespace Sys2Proof

open Machine

/-- Settles O10: the step runs the fetched instruction after the fetch-advance, which adds 2 to the pc. -/
theorem stepRunsTheDecodedInstruction : Obligations.StepRunsTheDecodedInstruction := by
  intro s w i hhalted hfault heven hword hdecode
  rw [step_eq_exec_fetchAdvance hhalted hfault (fetch_eq_some.mpr ⟨heven, hword⟩) hdecode, fetchAdvance_eq]

/-- With neither latch set, a step whose fetch gives nothing records the pc. -/
theorem step_of_fetch_eq_none {s : State} (hprogram : s.imem ≠ []) (hhalted : s.halted = false) (hfault : s.fault = none)
    (hfetch : fetch s = none) : step s = .next (s.raise (.invalidFetch s.pc)) := by
  simp [step, cycle, hprogram, hhalted, hfault, hfetch, takeFault]

/-- Settles O11: at such a pc the fetch gives nothing. -/
theorem stepAtAnAddressWithoutInstructionFaults : Obligations.StepAtAnAddressWithoutInstructionFaults := by
  intro s hprogram hhalted hfault hpc
  exact step_of_fetch_eq_none hprogram hhalted hfault (fetch_eq_none.mpr hpc)

/-- With neither latch set, a step that fetches an illegal word records the word after the fetch-advance. -/
theorem step_of_decode_eq_error {s : State} {w : IWord} {e : DecodeError} (hhalted : s.halted = false)
    (hfault : s.fault = none) (hfetch : fetch s = some w) (hdecode : decode w = .error e) :
    step s = .next ((fetchAdvance s).raise (.illegalInstruction w)) := by
  have hprogram : s.imem ≠ [] := imem_ne_nil_of_fetch_eq_some hfetch
  simp [step, cycle, hprogram, hhalted, hfault, hfetch, hdecode, takeFault]

/-- Settles O12: the word is fetched and does not decode. -/
theorem stepOnAnIllegalWordFaults : Obligations.StepOnAnIllegalWordFaults := by
  intro s w e hhalted hfault heven hword hdecode
  rw [step_of_decode_eq_error hhalted hfault (fetch_eq_some.mpr ⟨heven, hword⟩) hdecode, fetchAdvance_eq, State.raise]

/-- No step without a program (spec/70_reset_and_hazards.md R203). -/
theorem step_of_imem_eq_nil {s : State} (h : s.imem = []) : step s = .refused .noProgram := by
  simp [step, cycle, h]

/-- No step of a halted core (spec/10_state.md R28). -/
theorem step_of_halted {s : State} (hprogram : s.imem ≠ []) (h : s.halted = true) : step s = .refused .halted := by
  simp [step, cycle, hprogram, h]

/-- No step of a core with a fault (spec/10_state.md R28). -/
theorem step_of_fault {s : State} {f : Fault} (hprogram : s.imem ≠ []) (hhalted : s.halted = false)
    (h : s.fault = some f) : step s = .fault f := by
  simp [step, cycle, hprogram, hhalted, h]

/-- Settles O13: the three checks of a step before its fetch. -/
theorem noStepIsEnabledWhenStopped : Obligations.NoStepIsEnabledWhenStopped :=
  fun _ => ⟨step_of_imem_eq_nil, step_of_halted, fun _ => step_of_fault⟩

/-- Every instruction answers a next state: a shared operation completes or takes its fault. -/
theorem exists_exec_eq_next (i : Instr) (s : State) : ∃ t, exec i s = .next t := by
  have divide : ∀ f a m n, ∃ t, divideResult f a m n s = .next t := fun f a m n =>
    (divideResult_cases f a m n s).elim (fun h => ⟨_, h.2⟩) fun h => ⟨_, h.2⟩
  have address : ∀ ea k, ∃ t, withWordAddress ea s k = .next t := fun ea k =>
    (withWordAddress_cases ea s k).elim (fun h => ⟨_, h.2⟩) fun h => ⟨_, h.2⟩
  cases i with
  | div | divi | mod | modi => exact divide ..
  | lw a b n => exact exec_lw a b n s ▸ address ..
  | sw a b n => exact exec_sw a b n s ▸ address ..
  | _ => exact ⟨_, rfl⟩

/-- Settles O14: an enabled step fails to fetch, fails to decode, or runs an instruction, and each of these answers a next
state. -/
theorem everyEnabledStepAnswersANextState : Obligations.EveryEnabledStepAnswersANextState := by
  intro s hprogram hhalted hfault
  cases hfetch : fetch s with
  | none => exact ⟨_, step_of_fetch_eq_none hprogram hhalted hfault hfetch⟩
  | some w =>
    cases hdecode : decode w with
    | error e => exact ⟨_, step_of_decode_eq_error hhalted hfault hfetch hdecode⟩
    | ok i =>
      rw [step_eq_exec_fetchAdvance hhalted hfault hfetch hdecode]
      exact exists_exec_eq_next i _

end Sys2Proof
end

section
/-! PROOFS. What each instruction leaves unchanged (spec/10_state.md sections 2 and 3, 20_memory.md R52, R53, 60_exceptions.md
section 1), from the list of effects an instruction can have. -/

namespace Sys2Proof

open Machine

/-- The effects of a dispatched instruction: the cases of `exec_cases`, by name. -/
inductive ExecEffect (i : Instr) (s : State) : State → Prop where
  | write (a : Reg) (n : Int) (dest : recordDest i = some a)
      (tag : functionalClass i.mnemonic ∈ [FunctionalClass.alu, .multiply, .divide]) : ExecEffect i s (s.writeReg a n)
  | divideByZero (tag : functionalClass i.mnemonic = .divide) (zero : DividesByZero i s) :
      ExecEffect i s (s.raise (.divideByZero s.instrAddr))
  | load (a b : Reg) (imm : Int) (instr : i = .lw a b imm) : ExecEffect i s (s.writeReg a (s.memRead (s.x b + imm)))
  | store (a b : Reg) (imm : Int) (instr : i = .sw a b imm) (valid : isWordAddress s.params (s.x b + imm) = true) :
      ExecEffect i s (s.memWrite (s.x b + imm) (s.x a))
  | invalidAddress (ea : Int) (touched : touchedAddress i s = some ea)
      (tag : functionalClass i.mnemonic ∈ [FunctionalClass.load, .store]) (invalid : isWordAddress s.params ea = false) :
      ExecEffect i s (s.raise (.invalidAddress ea))
  | jump (n : Int) (tag : functionalClass i.mnemonic ∈ [FunctionalClass.branch, .jump, .ret]) : ExecEffect i s (s.setPc n)
  | link (a b : Reg) (instr : i = .jalr a b) (jumps : ¬ (a = .r0 ∧ b = .r0)) : ExecEffect i s (linkAndJump a b s)
  | halt (instr : i = .jalr .r0 .r0) : ExecEffect i s (linkAndJump .r0 .r0 s).setHalted

theorem execEffect_of_exec {i : Instr} {s t : State} (h : exec i s = .next t) : ExecEffect i s t := by
  obtain ⟨a, n, hd, hc, rfl⟩ | ⟨hc, hz, rfl⟩ | ⟨a, b, imm, hi, -, rfl⟩ | ⟨a, b, imm, hi, hv, rfl⟩ |
    ⟨ea, ht, hc, hv, rfl⟩ | ⟨hc, n, rfl⟩ | ⟨a, b, hi, hj, rfl⟩ | ⟨hi, rfl⟩ := exec_cases h
  · exact .write a n hd hc
  · exact .divideByZero hc hz
  · exact .load a b imm hi
  · exact .store a b imm hi hv
  · exact .invalidAddress ea ht hc hv
  · exact .jump n hc
  · exact .link a b hi hj
  · exact .halt hi

/-- Every effect leaves the instruction store and the parameters. -/
theorem exec_sameProgram {i : Instr} {s t : State} (h : exec i s = .next t) : SameProgram s t := by
  cases execEffect_of_exec h <;> exact ⟨rfl, rfl⟩

/-- Data memory after an instruction: as before, or with one word written at a valid address. -/
theorem exec_dmem {i : Instr} {s t : State} (h : exec i s = .next t) : t.dmem = s.dmem ∨
    i.mnemonic = .sw ∧ ∃ ea v, isWordAddress s.params ea = true ∧ t = s.memWrite ea v := by
  cases execEffect_of_exec h with
  | store a b imm instr valid => exact .inr ⟨instr ▸ rfl, _, _, valid, rfl⟩
  | write | divideByZero | load | invalidAddress | jump | link | halt => exact .inl rfl

/-- Settles O40: the one effect on data memory is that of `sw`. -/
theorem onlySwChangesMemory : Obligations.OnlySwChangesMemory := by
  intro i s t hsw h
  obtain hsame | ⟨hmnemonic, -⟩ := exec_dmem h
  · exact hsame
  · exact absurd hmnemonic hsw

/-- Settles O41: the effects on the pc are those of the four control-transfer classes. -/
theorem onlyControlTransfersChangeThePc : Obligations.OnlyControlTransfersChangeThePc := by
  intro i s t hclass h
  cases execEffect_of_exec h with
  | write | divideByZero | load | store | invalidAddress => rfl
  | jump n tag => exact absurd (List.mem_append_left [FunctionalClass.jumpAndLink] tag) hclass
  | link a b instr => exact absurd (by simp [instr, functionalClass, Instr.mnemonic]) hclass
  | halt instr => exact absurd (by simp [instr, functionalClass, Instr.mnemonic]) hclass

/-- Settles O42: the effects on registers are one register write, of the destination field. -/
theorem onlyTheDestinationRegisterChanges : Obligations.OnlyTheDestinationRegisterChanges := by
  intro i s t r h hdest
  have other : ∀ {a}, recordDest i = some a → r ≠ a := fun hd hr => hdest (hr ▸ hd)
  cases execEffect_of_exec h with
  | write a n dest => exact s.writeReg_readReg_of_ne n (other dest)
  | load a b imm instr => exact s.writeReg_readReg_of_ne _ (other (instr ▸ rfl))
  | link a b instr => exact linkAndJump_readReg_of_ne b s (other (instr ▸ rfl))
  | halt instr => exact linkAndJump_readReg_of_ne .r0 s (other (instr ▸ rfl))
  | divideByZero | store | invalidAddress | jump => rfl

/-- Settles O43: the effects on the fault latch are the divide by zero and the invalid address, each of which is `raise`. -/
theorem onlyDivideAndMemoryInstructionsFault : Obligations.OnlyDivideAndMemoryInstructionsFault := by
  intro i s t f hnone h hf
  cases execEffect_of_exec h with
  | divideByZero tag zero =>
    obtain rfl := Option.some.inj hf
    exact ⟨rfl, .inl ⟨tag, zero, rfl⟩⟩
  | invalidAddress ea touched tag invalid =>
    obtain rfl := Option.some.inj hf
    exact ⟨rfl, .inr ⟨ea, touched, invalid, rfl⟩⟩
  | write | load | store | jump | link | halt => exact absurd (hnone.symm.trans hf) nofun

/-- From a core that runs, only the halt pattern sets the latch (spec/44_control.md R176). -/
theorem exec_halted_iff {i : Instr} {s t : State} (hs : s.halted = false) (h : exec i s = .next t) :
    t.halted = true ↔ i = .jalr .r0 .r0 := by
  cases execEffect_of_exec h with
  | halt instr => exact iff_of_true rfl instr
  | link a b instr jumps =>
    refine iff_of_false (ne_true_of_eq_false hs) ?_
    rintro rfl
    obtain ⟨rfl, rfl⟩ := Instr.jalr.inj instr
    exact jumps ⟨rfl, rfl⟩
  | load _ _ _ instr | store _ _ _ instr => exact iff_of_false (ne_true_of_eq_false hs) (instr ▸ nofun)
  | write _ _ _ tag | divideByZero tag | invalidAddress _ _ tag | jump _ tag =>
    exact iff_of_false (ne_true_of_eq_false hs) fun hi => absurd (hi ▸ tag) (by decide)

end Sys2Proof
end

section
/-! PROOFS. What a step leaves unchanged and when it halts (spec/20_memory.md R53, 44_control.md R176, 60_exceptions.md R183). -/

namespace Sys2Proof

open Machine

/-- Settles O44: the fetch-advance, a fault and every instruction leave the instruction store and the parameters. -/
theorem noStepChangesTheProgram : Obligations.NoStepChangesTheProgram := by
  intro s t h
  obtain ⟨-, -, -, ⟨-, rfl⟩ | ⟨w, -, ⟨e, -, rfl⟩ | ⟨i, -, hexec⟩⟩⟩ := step_cases h
  · exact ⟨rfl, rfl⟩
  · exact ⟨rfl, rfl⟩
  · exact exec_sameProgram (s := fetchAdvance s) hexec

/-- The word of the halt pattern is 0x34000 (spec/44_control.md R176). -/
theorem decode_eq_halt_iff {w : IWord} : decode w = .ok (.jalr .r0 .r0) ↔ w = 0x34000#18 := by
  obtain ⟨⟨hdecode, hencode⟩, -⟩ := haltPatternSetsTheLatch
  constructor
  · intro h
    obtain ⟨-, hw⟩ := encodeOfDecodeIsTheWord w _ h
    exact hw.symm.trans hencode
  · rintro rfl
    exact hdecode

/-- Settles O38: a fault leaves the latch, an instruction sets it only as the halt pattern, and that is the one instruction 0x34000
decodes to. -/
theorem onlyTheHaltPatternHalts : Obligations.OnlyTheHaltPatternHalts := by
  intro s t h
  rw [← fetch_eq_some]
  obtain ⟨-, hrun, -, ⟨hfetch, rfl⟩ | ⟨w, hfetch, ⟨e, hdecode, rfl⟩ | ⟨i, hdecode, hexec⟩⟩⟩ := step_cases h
  · exact iff_of_false (ne_true_of_eq_false hrun) (by rw [hfetch]; nofun)
  · refine iff_of_false (ne_true_of_eq_false hrun) fun hhalt => ?_
    obtain rfl := Option.some.inj (hfetch.symm.trans hhalt)
    exact absurd (hdecode.symm.trans (decode_eq_halt_iff.mpr rfl)) nofun
  · calc t.halted = true
      _ ↔ i = .jalr .r0 .r0 := exec_halted_iff (s := fetchAdvance s) hrun hexec
      _ ↔ decode w = .ok (.jalr .r0 .r0) := by rw [hdecode, Except.ok.injEq]
      _ ↔ w = 0x34000#18 := decode_eq_halt_iff
      _ ↔ fetch s = some 0x34000#18 := by rw [hfetch, Option.some.injEq]

/-- Settles O58: the program stays, an installed word decodes, and an instruction records no `IllegalInstruction`. -/
theorem legalProgramsNeverFaultInDecode : Obligations.LegalProgramsNeverFaultInDecode := by
  intro s t hlegal _ h
  refine ⟨(noStepChangesTheProgram s t h).1 ▸ hlegal, fun v hv => ?_⟩
  obtain ⟨-, -, hnone, ⟨-, rfl⟩ | ⟨w, hfetch, ⟨e, hdecode, rfl⟩ | ⟨i, -, hexec⟩⟩⟩ := step_cases h
  · cases hv
  · obtain ⟨-, hw⟩ := fetch_eq_some.mp hfetch
    obtain ⟨i, hi, -⟩ := hlegal w (List.mem_of_getElem? hw)
    exact absurd (hi.symm.trans hdecode) nofun
  · obtain ⟨-, ⟨-, -, hf⟩ | ⟨ea, -, -, hf⟩⟩ :=
      onlyDivideAndMemoryInstructionsFault i (fetchAdvance s) t _ hnone hexec hv
    · cases hf
    · cases hf

end Sys2Proof
end

section
/-! PROOFS. The result record of a step (spec/30_encoding.md R83). -/

namespace Sys2Proof

open Machine

/-! ### The record of an instruction, by its class -/

/-- The first operand of every instruction is a register. -/
theorem exists_head?_operands_eq_reg (i : Instr) : ∃ a, i.operands.head? = some (.reg a) ∧ firstReg i.operands = some a := by
  cases i <;> exact ⟨_, rfl, rfl⟩

/-- The classes that write a register have the first operand as destination (spec/30_encoding.md R83). -/
theorem exists_recordDest_eq_head {i : Instr}
    (h : functionalClass i.mnemonic ∈ [FunctionalClass.alu, .multiply, .divide, .jumpAndLink]) :
    ∃ a, i.operands.head? = some (.reg a) ∧ recordDest i = some a := by
  obtain ⟨a, hhead, hfirst⟩ := exists_head?_operands_eq_reg i
  simp only [List.mem_cons, List.not_mem_nil, or_false] at h
  obtain h | h | h | h := h <;> exact ⟨a, hhead, by simp only [recordDest, h, hfirst]⟩

/-- The transfers without a link have no destination (spec/30_encoding.md R83). -/
theorem recordDest_eq_none {i : Instr} (h : functionalClass i.mnemonic ∈ [FunctionalClass.branch, .jump, .ret]) :
    recordDest i = none := by
  simp only [List.mem_cons, List.not_mem_nil, or_false] at h
  obtain h | h | h := h <;> simp only [recordDest, h]

/-- Only the memory instructions touch an address (spec/30_encoding.md R83). -/
theorem touchedAddress_eq_none {i : Instr} (h : functionalClass i.mnemonic ∉ [FunctionalClass.load, .store]) (s : State) :
    touchedAddress i s = none := by
  cases i with
  | lw | sw => exact absurd (by simp [functionalClass, Instr.mnemonic]) h
  | _ => rfl

theorem resultRecord_info_eq_pc {i : Instr} {s : State} (h : touchedAddress i s = none) (t : State) :
    (resultRecord i s t).info = .pc t.pc := by
  simp only [resultRecord, h]

/-! ### The record of a step -/

theorem stepEnabled_of_step {s t : State} (h : step s = .next t) : stepEnabled s = true := by
  obtain ⟨hprogram, hhalted, hfault, -⟩ := step_cases h
  simp [stepEnabled, hprogram, hhalted, hfault]

theorem stepRecord_of_fetch_eq_none {s : State} (h : fetch s = none) : stepRecord s = none := by
  simp [stepRecord, h]

theorem stepRecord_of_decode_eq_error {s : State} {w : IWord} {e : DecodeError} (hfetch : fetch s = some w)
    (hdecode : decode w = .error e) : stepRecord s = none := by
  simp [stepRecord, hfetch, hdecode]

/-- The record of a step that runs an instruction: none when it records a fault (spec/30_encoding.md R83). -/
theorem stepRecord_of_exec {s t : State} {w : IWord} {i : Instr} (henabled : stepEnabled s = true) (hfetch : fetch s = some w)
    (hdecode : decode w = .ok i) (hexec : exec i (fetchAdvance s) = .next t) :
    stepRecord s = if t.fault = none then some (resultRecord i (fetchAdvance s) t) else none := by
  simp [stepRecord, henabled, hfetch, hdecode, hexec]

/-- Settles O45: the steps that fail to fetch or to decode fault and emit nothing, and the others emit the record of their
instruction unless it faults. -/
theorem stepEmitsTheRecordOfItsClass : Obligations.StepEmitsTheRecordOfItsClass := by
  intro s t h
  obtain ⟨-, -, -, ⟨hfetch, rfl⟩ | ⟨w, hfetch, ⟨e, hdecode, rfl⟩ | ⟨i, hdecode, hexec⟩⟩⟩ := step_cases h
  · exact ⟨fun _ => stepRecord_of_fetch_eq_none hfetch, nofun⟩
  · exact ⟨fun _ => stepRecord_of_decode_eq_error hfetch hdecode, nofun⟩
  have hrecord := stepRecord_of_exec (stepEnabled_of_step h) hfetch hdecode hexec
  refine ⟨fun hfault => hrecord.trans (if_neg hfault), fun hfault => ?_⟩
  refine ⟨w, i, resultRecord i (fetchAdvance s) t, (fetch_eq_some.mp hfetch).2, hdecode, hrecord.trans (if_pos hfault), rfl,
    ?load, ?store, fun hclass => resultRecord_info_eq_pc (touchedAddress_eq_none hclass _) t, recordDest_eq_none,
    exists_recordDest_eq_head⟩
  case load =>
    rintro a b imm rfl
    exact ⟨rfl, rfl⟩
  case store =>
    rintro a b imm rfl
    exact ⟨rfl, rfl⟩

end Sys2Proof
end

section
/-! PROOFS. Reset (spec/70_reset_and_hazards.md R200, R201, 10_state.md R33). -/

namespace Sys2Proof

open Machine

/-- After Reset every register reads 0 (spec/70_reset_and_hazards.md R200). -/
theorem hostReset_x (s : State) (r : Reg) : (hostReset s).x r = 0 := by
  rw [State.x, State.readReg, hostReset, State.clear_regs, RegFile.read_zero]
  rfl

/-- Settles O47: Reset is `clear` at `START_ADDRESS`, and `State.reset` has no program. -/
theorem resetValues : Obligations.ResetValues :=
  ⟨fun s => ⟨hostReset_x s, rfl, rfl, rfl, ⟨rfl, rfl⟩, fun _ => rfl⟩, rfl, step_of_imem_eq_nil rfl⟩

/-- Settles O46: memory and program are empty, the latches clear, and the parameters meet their constraints. -/
theorem resetMeetsTheInvariant : Obligations.ResetMeetsTheInvariant where
  memory := wf_reset
  memoryInRange := nofun
  params := by decide
  programSize := by decide
  oneLatch := nofun
  haltInstalled := nofun
  faultRecord := nofun

end Sys2Proof
end

section
/-! PROOFS. Every step keeps the invariant of the core (spec/10_state.md section 4, 20_memory.md section 3, 60_exceptions.md
section 1): what a step does to memory, to the latches, and the truth of what it records. -/

namespace Sys2Proof

open Machine

/-! ### Data memory -/

/-- Both bytes of a valid word address are below `DMEM_BYTES`, which is even (spec/20_memory.md R43). -/
theorem toNat_succ_lt_of_isWordAddress {p : Params} (hp : p.wf) {ea : Int} (h : isWordAddress p ea = true) :
    ea.toNat + 1 < p.dmemBytes := by
  obtain ⟨hnonneg, hlt, heven⟩ := (isWordAddress_iff p ea).mp h
  obtain ⟨-, hsize, -⟩ := hp
  omega

/-- A word write at a valid address lists no address beyond `DMEM_BYTES`. -/
theorem lt_dmemBytes_of_mem_writeWord {p : Params} (hp : p.wf) {m : Memory} (hm : ∀ c ∈ m, c.1 < p.dmemBytes) {ea : Int}
    (hea : isWordAddress p ea = true) (o : ByteOrder) (v : Word) : ∀ c ∈ m.writeWord o ea.toNat v, c.1 < p.dmemBytes := by
  intro c hc
  have hlt := toNat_succ_lt_of_isWordAddress hp hea
  obtain hold | hlo | hhi := Memory.mem_writeWord hc
  · exact hm c hold
  · omega
  · omega

/-- Data memory after a step: as before, or with one word written at a valid address. -/
theorem step_dmem {s t : State} (h : step s = .next t) : t.dmem = s.dmem ∨
    ∃ ea v, isWordAddress s.params ea = true ∧ t.dmem = s.dmem.writeWord s.params.byteOrder ea.toNat v := by
  obtain ⟨-, -, -, ⟨-, rfl⟩ | ⟨w, -, ⟨e, -, rfl⟩ | ⟨i, -, hexec⟩⟩⟩ := step_cases h
  · exact .inl rfl
  · exact .inl rfl
  · obtain hsame | ⟨-, ea, v, hvalid, rfl⟩ := exec_dmem hexec
    · exact .inl hsame
    · exact .inr ⟨ea, toPattern v, hvalid, rfl⟩

/-! ### The latches -/

/-- A step that sets the halted latch has met no fault: it ran the halt pattern, which leaves the fault latch. -/
theorem step_fault_eq_none_of_halted {s t : State} (h : step s = .next t) (hhalted : t.halted = true) : t.fault = none := by
  obtain ⟨-, hrun, hnone, ⟨-, rfl⟩ | ⟨w, -, ⟨e, -, rfl⟩ | ⟨i, -, hexec⟩⟩⟩ := step_cases h
  · exact absurd (hrun.symm.trans hhalted) nofun
  · exact absurd (hrun.symm.trans hhalted) nofun
  · obtain rfl := (exec_halted_iff (s := fetchAdvance s) hrun hexec).mp hhalted
    obtain rfl := Host.Outcome.next.inj ((exec_jalr_halt _).symm.trans hexec)
    exact hnone

/-- A step that sets the halted latch has found the halt pattern in the program. -/
theorem mem_imem_of_step_halted {s t : State} (h : step s = .next t) (hhalted : t.halted = true) : 0x34000#18 ∈ t.imem := by
  obtain ⟨-, hword⟩ := (onlyTheHaltPatternHalts s t h).mp hhalted
  rw [(noStepChangesTheProgram s t h).1]
  exact List.mem_of_getElem? hword

/-! ### The fault record -/

/-- The effective address of a well-formed instruction is a 16-bit integer plus a 7-bit one (spec/43_memory_ops.md R152). -/
theorem touchedAddress_bounds {i : Instr} (hwf : i.wellFormed = true) {s : State} {ea : Int}
    (h : touchedAddress i s = some ea) : -32832 ≤ ea ∧ ea ≤ 32830 := by
  cases i with
  | lw a b n | sw a b n =>
    obtain rfl := Option.some.inj h
    obtain ⟨hlo, hhi⟩ := (Instr.wellFormed_iff_of_operands_rri rfl (by nofun)).mp hwf
    have hx := s.x_bounds b
    rw [effectiveAddress]
    omega
  | _ => cases h

/-- What a step records is true of the state it answers (spec/60_exceptions.md R180 to R185). -/
theorem step_faultRecorded {s t : State} (h : step s = .next t) {f : Fault} (hf : t.fault = some f) : FaultRecorded t f := by
  obtain ⟨-, -, hnone, ⟨hfetch, rfl⟩ | ⟨w, hfetch, ⟨e, hdecode, rfl⟩ | ⟨i, hdecode, hexec⟩⟩⟩ := step_cases h
  · obtain rfl := Option.some.inj hf
    exact ⟨rfl, fetch_eq_none.mp hfetch⟩
  · obtain rfl := Option.some.inj hf
    exact ⟨List.mem_of_getElem? (fetch_eq_some.mp hfetch).2, e, hdecode⟩
  · obtain ⟨heven, hword⟩ := fetch_eq_some.mp hfetch
    obtain ⟨rfl, ⟨htag, -, rfl⟩ | ⟨ea, htouched, hinvalid, rfl⟩⟩ :=
      onlyDivideAndMemoryInstructionsFault i (fetchAdvance s) t f hnone hexec hf
    · change FaultRecorded _ (.divideByZero (fetchAdvance s).instrAddr)
      rw [instrAddr_fetchAdvance]
      exact ⟨heven, w, i, hword, hdecode, htag⟩
    · obtain ⟨hwf, -⟩ := encodeOfDecodeIsTheWord w i hdecode
      obtain ⟨hlo, hhi⟩ := touchedAddress_bounds hwf htouched
      exact ⟨hlo, hhi, hinvalid⟩

/-- Settles O48: memory keeps its form and range because a step writes at most one word at a valid address; program and parameters
stay; and the latches are set by the halt pattern and by true faults alone. -/
theorem everyStepKeepsTheInvariant : Obligations.EveryStepKeepsTheInvariant := by
  intro s t hs h
  obtain ⟨himem, hparams⟩ := noStepChangesTheProgram s t h
  exact {
    memory := by
      obtain hsame | ⟨ea, v, -, hwrite⟩ := step_dmem h
      · exact hsame ▸ hs.memory
      · exact hwrite ▸ Memory.wf_writeWord _ _ _ hs.memory
    memoryInRange := by
      rw [hparams]
      obtain hsame | ⟨ea, v, hvalid, hwrite⟩ := step_dmem h
      · exact hsame ▸ hs.memoryInRange
      · exact hwrite ▸ lt_dmemBytes_of_mem_writeWord hs.params hs.memoryInRange hvalid _ v
    params := hparams ▸ hs.params
    programSize := himem ▸ hs.programSize
    oneLatch := fun ⟨hhalted, hfaulted⟩ => hfaulted (step_fault_eq_none_of_halted h hhalted)
    haltInstalled := mem_imem_of_step_halted h
    faultRecord := fun _ => step_faultRecorded h }

end Sys2Proof
end

section
/-! PROOFS. `BYTE_ORDER` is not observable (spec/20_memory.md R41, decision D12): a simulation between two states that hold the same
words. Each state operation keeps the relation, so each instruction and each step does. -/

namespace Sys2Proof

open Machine

/-! ### What related states agree on -/

section

variable {s t : State} (h : SameWords s t)

include h

theorem SameWords.readReg_eq (r : Reg) : t.readReg r = s.readReg r := congrArg (RegFile.read · r) h.regs

theorem SameWords.x_eq (r : Reg) : t.x r = s.x r := congrArg BitVec.toInt (h.readReg_eq r)

theorem SameWords.isWordAddress_eq (ea : Int) : isWordAddress t.params ea = isWordAddress s.params ea := by
  simp only [isWordAddress, h.size]

theorem SameWords.memRead_eq {ea : Int} (hea : isWordAddress s.params ea = true) : t.memRead ea = s.memRead ea := by
  obtain ⟨hnonneg, -, heven⟩ := (isWordAddress_iff _ _).mp hea
  exact congrArg BitVec.toInt (h.words ea.toNat (by omega))

/-! ### The state operations keep the relation -/

theorem SameWords.writeReg (a : Reg) (n : Int) : SameWords (s.writeReg a n) (t.writeReg a n) :=
  { h with regs := congrArg (RegFile.write · a (toPattern n)) h.regs }

theorem SameWords.setPc (n : Int) : SameWords (s.setPc n) (t.setPc n) := { h with pc := rfl }

theorem SameWords.incrementPc (d : Int) : SameWords (s.incrementPc d) (t.incrementPc d) := by
  rw [State.incrementPc, State.incrementPc, h.pc]
  exact h.setPc _

theorem SameWords.setHalted : SameWords s.setHalted t.setHalted := { h with halted := rfl }

theorem SameWords.raise (f : Fault) : SameWords (s.raise f) (t.raise f) := { h with fault := rfl }

theorem SameWords.linkAndJump (a b : Reg) : SameWords (linkAndJump a b s) (linkAndJump a b t) := by
  have hlink : SameWords (s.writeReg a (s.pc.toNat : Int)) (t.writeReg a (t.pc.toNat : Int)) := by
    rw [h.pc]
    exact h.writeReg a _
  rw [Machine.linkAndJump, Machine.linkAndJump, hlink.x_eq]
  exact hlink.setPc _

/-- A store of one word at a valid address: it is that word on both sides, and every other aligned word is as before. -/
theorem SameWords.memWrite {ea : Int} (hea : isWordAddress s.params ea = true) (v : Int) :
    SameWords (s.memWrite ea v) (t.memWrite ea v) := by
  obtain ⟨hnonneg, -, heven⟩ := (isWordAddress_iff _ _).mp hea
  obtain ⟨hs, ht⟩ := h.wellFormed
  refine { h with wellFormed := ⟨Memory.wf_writeWord _ _ _ hs, Memory.wf_writeWord _ _ _ ht⟩, words := fun adr hadr => ?_ }
  simp only [State.memWrite_dmem, State.memWrite_params]
  by_cases hsame : adr = ea.toNat
  · rw [hsame, Memory.readWord_writeWord_self _ _ _ hs, Memory.readWord_writeWord_self _ _ _ ht]
  · rw [Memory.readWord_writeWord_of_ne _ _ _ (by omega) hadr hsame,
      Memory.readWord_writeWord_of_ne _ _ _ (by omega) hadr hsame, h.words adr hadr]

end

/-! ### Related outcomes -/

/-- Two outcomes that are next states holding the same words, or one fault, or one refusal. -/
inductive SameOutcome : Result → Result → Prop where
  | next {s t : State} (words : SameWords s t) : SameOutcome (.next s) (.next t)
  | fault (f : Fault) : SameOutcome (.fault f) (.fault f)
  | refused (q : Refusal) : SameOutcome (.refused q) (.refused q)

section

variable {s t : State} (h : SameWords s t)

include h

theorem SameWords.takeFault (f : Fault) : SameOutcome (takeFault f s) (takeFault f t) := .next (h.raise f)

theorem SameWords.writeResult {m n : Int} (hmn : n = m) (a : Reg) :
    SameOutcome (writeResult a m s) (writeResult a n t) := by
  rw [hmn]
  exact .next (h.writeReg a m)

theorem SameWords.divideResult {m m' n n' : Int} (hm : m' = m) (hn : n' = n) (f : Int → Int → Int) (a : Reg) :
    SameOutcome (divideResult f a m n s) (divideResult f a m' n' t) := by
  rw [hm, hn, Machine.divideResult, Machine.divideResult, State.instrAddr, State.instrAddr, h.pc]
  split
  · exact h.takeFault _
  · exact .next (h.writeReg a _)

theorem SameWords.branchIf {c d : Bool} (hcd : d = c) (imm : Int) : SameOutcome (branchIf c imm s) (branchIf d imm t) := by
  rw [hcd]
  cases c
  · exact .next h
  · exact .next (h.incrementPc imm)

theorem SameWords.withWordAddress {ea ea' : Int} (hea : ea' = ea) {j k : Int → State}
    (hjk : isWordAddress s.params ea = true → SameWords (j ea) (k ea)) :
    SameOutcome (withWordAddress ea s j) (withWordAddress ea' t k) := by
  rw [hea, Machine.withWordAddress, Machine.withWordAddress, h.isWordAddress_eq]
  split
  · next hvalid => exact .next (hjk hvalid)
  · exact h.takeFault _

/-- Every instruction gives related outcomes: it reads registers, valid words and the pc, on which related states agree. -/
theorem SameWords.exec (i : Instr) : SameOutcome (exec i s) (exec i t) := by
  cases i with
  | add | addi | sub | subi | and | andi | or | ori | nand | nor | mul | muli | lui =>
    exact h.writeResult (by simp only [h.x_eq]) _
  | div | divi | mod | modi => exact h.divideResult (by simp only [h.x_eq]) (by simp only [h.x_eq]) _ _
  | lw a b n =>
    rw [exec_lw, exec_lw]
    refine h.withWordAddress (by rw [h.x_eq]) fun hvalid => ?_
    rw [h.memRead_eq hvalid]
    exact h.writeReg a _
  | sw a b n =>
    rw [exec_sw, exec_sw]
    refine h.withWordAddress (by rw [h.x_eq]) fun hvalid => ?_
    rw [h.x_eq]
    exact h.memWrite hvalid _
  | beq | bne | bgt | blt | bge | ble =>
    exact h.branchIf (by simp only [condEq, condNe, condGt, condLt, condGe, condLe, h.x_eq]) _
  | jmp a n =>
    rw [exec_jmp, exec_jmp, h.pc, h.x_eq]
    exact .next (h.setPc _)
  | ret a =>
    rw [exec_ret, exec_ret, h.x_eq]
    exact .next (h.setPc _)
  | jalr a b =>
    by_cases hhalt : a = .r0 ∧ b = .r0
    · obtain ⟨rfl, rfl⟩ := hhalt
      exact .next (h.linkAndJump .r0 .r0).setHalted
    · rw [exec_jalr_of_not_halt hhalt, exec_jalr_of_not_halt hhalt]
      exact .next (h.linkAndJump a b)

theorem SameWords.fetch_eq : fetch t = fetch s := by
  simp only [fetch, h.pc, h.imem]

/-- A step gives related outcomes: related states agree on what enables it and on what it fetches. -/
theorem SameWords.step : SameOutcome (step s) (step t) := by
  simp only [Machine.step, cycle, h.imem, h.halted, h.fault, h.fetch_eq, h.pc]
  split
  · exact .refused _
  split
  · exact .refused _
  split
  · exact .fault _
  split
  · exact h.takeFault _
  split
  · exact (h.incrementPc 2).takeFault _
  · exact (h.incrementPc 2).exec _

end

theorem SameOutcome.exists_eq_next {s' : State} {r : Result} (h : SameOutcome (.next s') r) :
    ∃ t', r = .next t' ∧ SameWords s' t' := by
  cases h with
  | next words => exact ⟨_, rfl, words⟩

theorem SameOutcome.eq_fault {f : Fault} {r : Result} (h : SameOutcome (.fault f) r) : r = .fault f := by
  cases h; rfl

theorem SameOutcome.eq_refused {q : Refusal} {r : Result} (h : SameOutcome (.refused q) r) : r = .refused q := by
  cases h; rfl

/-- Settles O50: related states step to related outcomes (`SameWords.step`), so whatever the one answers the other does too. -/
theorem byteOrderIsNotObservable : Obligations.ByteOrderIsNotObservable := by
  intro s t h
  have hstep := h.step
  exact ⟨fun _ hs => (hs ▸ hstep).exists_eq_next, fun _ hs => (hs ▸ hstep).eq_fault, fun _ hs => (hs ▸ hstep).eq_refused⟩

end Sys2Proof
end

section
/-! PROOFS. The assembler's computations that may fail: what a success of two computations in order says, and what operand binding
and label fixup make of operands (spec/40_assembler_resolver.md R102, R103, R106). -/

namespace Sys2Proof

open Machine

/-- Two computations in order succeed when both do. -/
theorem except_bind_eq_ok_iff {ε α β : Type} {x : Except ε α} {f : α → Except ε β} {b : β} :
    (x >>= f) = .ok b ↔ ∃ a, x = .ok a ∧ f a = .ok b := by
  cases x with
  | error e => exact iff_of_false nofun fun ⟨_, h, _⟩ => nomatch h
  | ok a =>
    refine ⟨fun h => ⟨a, rfl, h⟩, ?_⟩
    rintro ⟨_, ⟨⟩, h⟩
    exact h

/-! ### Immediate slots -/

/-- The window of an immediate, by mnemonic (spec/40_assembler_resolver.md R103). -/
theorem immInRange_iff {m : Mnemonic} {n : Int} :
    immInRange m n = true ↔ (m = .lui ∧ 0 ≤ n ∧ n ≤ 0x3FF) ∨ (m ≠ .lui ∧ -64 ≤ n ∧ n ≤ 63) := by
  by_cases h : m = .lui
  · simp [h, immInRange_lui]
  · simp [h, immInRange_of_ne_lui h]

theorem rangeChecked_eq_ok_iff {m : Mnemonic} {n : Int} {o : Operand} :
    rangeChecked m n = .ok o ↔ o = .imm n ∧ immInRange m n = true := by
  rw [rangeChecked]
  split
  · next h => simp [h, eq_comm]
  · next h => simp [h]

theorem rangeChecked_of_immInRange {m : Mnemonic} {n : Int} (h : immInRange m n = true) : rangeChecked m n = .ok (.imm n) :=
  rangeChecked_eq_ok_iff.mpr ⟨rfl, h⟩

theorem bindImmediate_of_parseLiteral_eq_some {t : Text} {n : Int} (h : parseLiteral t = some n) (m : Mnemonic) :
    bindImmediate m (.text t) = rangeChecked m n := by
  simp only [bindImmediate, h]

theorem bindImmediate_of_parseLiteral_eq_none {t : Text} (h : parseLiteral t = none) (m : Mnemonic) :
    bindImmediate m (.text t) = if acceptsLabel m then .ok (.label t) else .error .badLiteral := by
  simp only [bindImmediate, h]

/-- The mnemonics that accept a label are those of the classes BRANCH and JUMP (spec/40_assembler_resolver.md R103). -/
theorem acceptsLabel_iff (m : Mnemonic) :
    acceptsLabel m = true ↔ functionalClass m ∈ [FunctionalClass.branch, .jump] := by
  cases m <;> decide

/-- Settles O55: a literal goes to the range check of the window, and any other token is a label where the class accepts one. -/
theorem immediateSlotIsRangeChecked : Obligations.ImmediateSlotIsRangeChecked := by
  refine ⟨fun m t n h => ?_, fun m t h => ?_⟩
  · rw [bindImmediate_of_parseLiteral_eq_some h, rangeChecked_eq_ok_iff, immInRange_iff]
    exact and_iff_right rfl
  · simp only [bindImmediate_of_parseLiteral_eq_none h, acceptsLabel_iff]

/-! ### The operands of a staged instruction -/

/-- An operand between parse and label fixup: a well-formed one, or a label where the mnemonic accepts one
(spec/30_encoding.md R67). -/
def StagedOperandOk (m : Mnemonic) (o : Operand) : Prop :=
  operandOk m o = true ∨ acceptsLabel m = true ∧ ∃ name, o = .label name

theorem stagedOperandOk_of_rangeChecked {m : Mnemonic} {n : Int} {o : Operand} (h : rangeChecked m n = .ok o) :
    StagedOperandOk m o := by
  obtain ⟨rfl, hrange⟩ := rangeChecked_eq_ok_iff.mp h
  exact .inl hrange

theorem stagedOperandOk_of_bindRegister {m : Mnemonic} {tok : Token} {o : Operand} (h : bindRegister tok = .ok o) :
    StagedOperandOk m o := by
  cases tok with
  | number n => cases h
  | text t =>
    rw [bindRegister] at h
    split at h
    · cases h
      exact .inl rfl
    · cases h

theorem stagedOperandOk_of_bindImmediate {m : Mnemonic} {tok : Token} {o : Operand} (h : bindImmediate m tok = .ok o) :
    StagedOperandOk m o := by
  cases tok with
  | number n => exact stagedOperandOk_of_rangeChecked h
  | text t =>
    cases hlit : parseLiteral t with
    | some n =>
      rw [bindImmediate_of_parseLiteral_eq_some hlit] at h
      exact stagedOperandOk_of_rangeChecked h
    | none =>
      rw [bindImmediate_of_parseLiteral_eq_none hlit] at h
      split at h
      · next haccepts =>
        cases h
        exact .inr ⟨haccepts, t, rfl⟩
      · cases h

theorem stagedOperandOk_of_bindSlot {m : Mnemonic} {k : OperandKind} {tok : Token} {o : Operand}
    (h : bindSlot m k tok = .ok o) : StagedOperandOk m o := by
  cases k with
  | register => exact stagedOperandOk_of_bindRegister h
  | immediate => exact stagedOperandOk_of_bindImmediate h

theorem stagedOperandOk_of_bindSlots {m : Mnemonic} {kinds : List OperandKind} {toks : List Token} {os : List Operand}
    (h : bindSlots m kinds toks = .ok os) : ∀ o ∈ os, StagedOperandOk m o := by
  induction kinds generalizing toks os with
  | nil =>
    cases toks with
    | nil => cases h; exact List.forall_mem_nil _
    | cons => cases h
  | cons k ks ih =>
    cases toks with
    | nil => cases h
    | cons tok toks =>
      obtain ⟨o, ho, h⟩ := except_bind_eq_ok_iff.mp h
      obtain ⟨os, hos, h⟩ := except_bind_eq_ok_iff.mp h
      cases h
      exact List.forall_mem_cons.mpr ⟨stagedOperandOk_of_bindSlot ho, ih hos⟩

/-- A staged instruction as the parse leaves it. -/
def StagedOk (st : Staged) : Prop := ∀ o ∈ st.operands, StagedOperandOk st.mnemonic o

theorem stagedOk_of_parseReal {l : RealLine} {st : Staged} (h : parseReal l = .ok st) : StagedOk st := by
  rw [parseReal] at h
  split at h
  · cases h
  · split at h
    · obtain ⟨os, hos, h⟩ := except_bind_eq_ok_iff.mp h
      cases h
      exact stagedOperandOk_of_bindSlots hos
    · cases h

theorem stagedOk_of_parseReals {ls : List RealLine} {sts : List Staged} (h : parseReals ls = .ok sts) :
    ∀ st ∈ sts, StagedOk st := by
  induction ls generalizing sts with
  | nil => cases h; exact List.forall_mem_nil _
  | cons l ls ih =>
    obtain ⟨st, hst, h⟩ := except_bind_eq_ok_iff.mp h
    obtain ⟨sts, hsts, h⟩ := except_bind_eq_ok_iff.mp h
    cases h
    exact List.forall_mem_cons.mpr ⟨stagedOk_of_parseReal hst, ih hsts⟩

/-! ### The staged instructions of a program text -/

/-- Splitting off a label leaves what is staged (spec/40_assembler_resolver.md R92, R104). -/
theorem takeLabel_staged {asm asm' : Assembly} {line rest : Text} (h : takeLabel asm line = .ok (asm', rest)) :
    asm'.staged = asm.staged := by
  unfold takeLabel at h
  simp only at h
  split at h
  · split at h
    · cases h
    · split at h
      · cases h
      · obtain ⟨defined, hdefine, h⟩ := except_bind_eq_ok_iff.mp h
        cases h
        unfold Assembly.define at hdefine
        split at hdefine
        · cases hdefine
        · cases hdefine
          rfl
  · cases h
    rfl

theorem stagedOk_of_assembleLine {asm asm' : Assembly} {line : Text} (hasm : ∀ st ∈ asm.staged, StagedOk st)
    (h : assembleLine asm line = .ok asm') : ∀ st ∈ asm'.staged, StagedOk st := by
  obtain ⟨⟨labelled, rest⟩, hlabel, h⟩ := except_bind_eq_ok_iff.mp h
  obtain ⟨lines, -, h⟩ := except_bind_eq_ok_iff.mp h
  obtain ⟨more, hmore, h⟩ := except_bind_eq_ok_iff.mp h
  cases h
  rw [takeLabel_staged hlabel]
  exact List.forall_mem_append.mpr ⟨hasm, stagedOk_of_parseReals hmore⟩

theorem stagedOk_of_assembleLines {lines : List Text} {asm asm' : Assembly} (hasm : ∀ st ∈ asm.staged, StagedOk st)
    (h : assembleLines lines asm = .ok asm') : ∀ st ∈ asm'.staged, StagedOk st := by
  induction lines generalizing asm with
  | nil => cases h; exact hasm
  | cons l ls ih =>
    obtain ⟨next, hline, h⟩ := except_bind_eq_ok_iff.mp h
    exact ih (stagedOk_of_assembleLine hasm hline) h

/-! ### Label fixup -/

/-- A mnemonic that accepts a label has the window of the resolver's offsets (spec/40_assembler_resolver.md R103, R105). -/
theorem immInRange_of_resolve {m : Mnemonic} (hm : acceptsLabel m = true) {b t off : Int} (h : resolve b t = .ok off) :
    immInRange m off = true := by
  obtain ⟨-, hbounds⟩ := resolve_eq_ok_iff.mp h
  refine (immInRange_of_ne_lui ?_).mpr hbounds
  rintro rfl
  exact absurd hm (by decide)

/-- After label fixup an operand is well formed (spec/40_assembler_resolver.md R106). -/
theorem operandOk_of_fixupOperand {m : Mnemonic} {labels : List (Text × Nat)} {j : Nat} {o o' : Operand}
    (ho : StagedOperandOk m o) (h : fixupOperand labels j o = .ok o') : operandOk m o' = true := by
  obtain hok | ⟨haccepts, name, rfl⟩ := ho
  · cases o with
    | reg | imm => cases h; exact hok
    | label => cases hok
  · cases hlookup : labels.lookup name with
    | none =>
      rw [fixupOperand_label_of_lookup_eq_none hlookup] at h
      cases h
    | some target =>
      rw [fixupOperand_label_of_lookup_eq_some hlookup] at h
      cases hresolve : resolve (2 * j) target with
      | error e => rw [hresolve] at h; cases h
      | ok off =>
        rw [hresolve] at h
        cases h
        exact immInRange_of_resolve haccepts hresolve

theorem operandOk_of_fixupOperands {m : Mnemonic} {labels : List (Text × Nat)} {j : Nat} {os os' : List Operand}
    (hos : ∀ o ∈ os, StagedOperandOk m o) (h : fixupOperands labels j os = .ok os') : ∀ o ∈ os', operandOk m o = true := by
  induction os generalizing os' with
  | nil => cases h; exact List.forall_mem_nil _
  | cons o os ih =>
    obtain ⟨ho, hos⟩ := List.forall_mem_cons.mp hos
    obtain ⟨o', ho', h⟩ := except_bind_eq_ok_iff.mp h
    obtain ⟨os', hos', h⟩ := except_bind_eq_ok_iff.mp h
    cases h
    exact List.forall_mem_cons.mpr ⟨operandOk_of_fixupOperand ho ho', ih hos hos'⟩

/-- Binding gives an instruction with just the mnemonic and the operands bound (spec/30_encoding.md R82). -/
theorem bindOperands_eq_some {m : Mnemonic} {os : List Operand} {i : Instr} (h : bindOperands m os = some i) :
    i.mnemonic = m ∧ i.operands = os := by
  unfold bindOperands at h
  split at h <;> cases h <;> exact ⟨rfl, rfl⟩

theorem wellFormed_of_fixup {labels : List (Text × Nat)} {j : Nat} {st : Staged} {i : Instr} (hst : StagedOk st)
    (h : fixup labels j st = .ok i) : i.wellFormed = true := by
  obtain ⟨os, hos, h⟩ := except_bind_eq_ok_iff.mp h
  split at h
  · next hbind =>
    cases h
    obtain ⟨hmnemonic, hoperands⟩ := bindOperands_eq_some hbind
    rw [Instr.wellFormed, hmnemonic, hoperands, List.all_eq_true]
    exact operandOk_of_fixupOperands hst hos
  · cases h

theorem wellFormed_of_fixupAll {labels : List (Text × Nat)} {j : Nat} {sts : List Staged} {is : List Instr}
    (hsts : ∀ st ∈ sts, StagedOk st) (h : fixupAll labels j sts = .ok is) : ∀ i ∈ is, i.wellFormed = true := by
  induction sts generalizing j is with
  | nil => cases h; exact List.forall_mem_nil _
  | cons st sts ih =>
    obtain ⟨hst, hsts⟩ := List.forall_mem_cons.mp hsts
    obtain ⟨i, hi, h⟩ := except_bind_eq_ok_iff.mp h
    obtain ⟨is, his, h⟩ := except_bind_eq_ok_iff.mp h
    cases h
    exact List.forall_mem_cons.mpr ⟨wellFormed_of_fixup hst hi, ih hsts his⟩

/-- Label fixup keeps the number of instructions (spec/40_assembler_resolver.md R106). -/
theorem length_of_fixupAll {labels : List (Text × Nat)} {j : Nat} {sts : List Staged} {is : List Instr}
    (h : fixupAll labels j sts = .ok is) : is.length = sts.length := by
  induction sts generalizing j is with
  | nil => cases h; rfl
  | cons st sts ih =>
    obtain ⟨i, -, h⟩ := except_bind_eq_ok_iff.mp h
    obtain ⟨is, his, h⟩ := except_bind_eq_ok_iff.mp h
    cases h
    simp [ih his]

/-! ### The program part of Load -/

/-- What a program text that assembles has gone through (spec/40_assembler_resolver.md R116). -/
theorem assembleProgram_eq_ok {text : Text} {program : List Instr} (h : assembleProgram text = .ok program) :
    ∃ asm, assembleLines (normalize text) ⟨[], []⟩ = .ok asm ∧ asm.staged ≠ [] ∧ asm.staged.length ≤ imemMax ∧
      fixupAll asm.labels 0 asm.staged = .ok program := by
  unfold assembleProgram at h
  simp only at h
  split at h
  · cases h
  obtain ⟨asm, hasm, h⟩ := except_bind_eq_ok_iff.mp h
  split at h
  · cases h
  · next hsome =>
    split at h
    · cases h
    · next hfits => exact ⟨asm, hasm, hsome, Nat.not_lt.mp hfits, h⟩

/-- The number of instructions of a program text that assembles (spec/40_assembler_resolver.md R91, R109). -/
theorem length_of_assembleProgram {text : Text} {program : List Instr} (h : assembleProgram text = .ok program) :
    1 ≤ program.length ∧ program.length ≤ imemMax := by
  obtain ⟨asm, -, hsome, hfits, hfixup⟩ := assembleProgram_eq_ok h
  rw [length_of_fixupAll hfixup]
  exact ⟨List.length_pos_iff.mpr hsome, hfits⟩

/-- The assembler makes well-formed instructions only (spec/40_assembler_resolver.md R108). -/
theorem wellFormed_of_assembleProgram {text : Text} {program : List Instr} (h : assembleProgram text = .ok program) :
    ∀ i ∈ program, i.wellFormed = true := by
  obtain ⟨asm, hasm, -, -, hfixup⟩ := assembleProgram_eq_ok h
  exact wellFormed_of_fixupAll (stagedOk_of_assembleLines (List.forall_mem_nil _) hasm) hfixup

end Sys2Proof
end

section
/-! PROOFS. The pseudo-instructions `lli` and `movi` (spec/40_assembler_resolver.md R96, R99, R100): their expansions, and what the
instructions they expand to do. -/

namespace Sys2Proof

open Machine

/-! ### The literal of the pseudo-instruction -/

theorem pseudoImmediate_of_mem {lo hi n : Int} {tok : Text} (h : parseLiteral tok = some n) (hn : lo ≤ n ∧ n ≤ hi) :
    pseudoImmediate lo hi tok = .ok n := by
  simp only [pseudoImmediate, h, if_pos hn]

theorem pseudoImmediate_of_not_mem {lo hi n : Int} {tok : Text} (h : parseLiteral tok = some n) (hn : ¬ (lo ≤ n ∧ n ≤ hi)) :
    pseudoImmediate lo hi tok = .error .immediateOutOfRange := by
  simp only [pseudoImmediate, h, if_neg hn]

theorem pseudoImmediate_of_no_literal {tok : Text} (h : parseLiteral tok = none) (lo hi : Int) :
    pseudoImmediate lo hi tok = .error .badLiteral := by
  simp only [pseudoImmediate, h]

/-! ### The expansions -/

/-- The line `addi rd, rd, imm & 0x3F` that both expansions end with (spec/40_assembler_resolver.md R99, R100). -/
def addLowSixLine (rd : Text) (n : Int) : RealLine := ⟨"addi".toList, [.text rd, .text rd, .number (lowSix n)]⟩

/-- The line `lui rd, imm >> 6` that the expansion of `movi` begins with (spec/40_assembler_resolver.md R100). -/
def loadUpperLine (rd : Text) (n : Int) : RealLine := ⟨"lui".toList, [.text rd, .number (upperTen n)]⟩

theorem pseudoOf_movi : pseudoOf "movi".toList = some .movi := by decide

theorem pseudoOf_lli : pseudoOf "lli".toList = some .lli := by decide

/-- `movi` is its literal's check, then its two lines (spec/40_assembler_resolver.md R100). -/
theorem expand_movi (rd tok : Text) : expand "movi".toList [rd, tok] =
    (pseudoImmediate 0 0xFFFF tok).map fun n => [loadUpperLine rd n, addLowSixLine rd n] := by
  rw [expand_of_pseudoOf pseudoOf_movi, expandPseudo]
  cases pseudoImmediate 0 0xFFFF tok <;> rfl

/-- `lli` is its literal's check, then its one line (spec/40_assembler_resolver.md R99). -/
theorem expand_lli (rd tok : Text) : expand "lli".toList [rd, tok] =
    (pseudoImmediate (-32768) 65535 tok).map fun n => [addLowSixLine rd n] := by
  rw [expand_of_pseudoOf pseudoOf_lli, expandPseudo]
  cases pseudoImmediate (-32768) 65535 tok <;> rfl

/-! ### The real-instruction parse of the expanded lines -/

theorem mnemonicOf_addi : mnemonicOf "addi".toList = some .addi := by decide

theorem mnemonicOf_lui : mnemonicOf "lui".toList = some .lui := by decide

theorem bindRegister_text {rd : Text} {a : Reg} (h : lookupRegister rd = some a) : bindRegister (.text rd) = .ok (.reg a) := by
  simp only [bindRegister, h]

/-- The low six bits fit the window of `addi` (spec/40_assembler_resolver.md R99, R103). -/
theorem immInRange_lowSix (n : Int) : immInRange .addi (n % 64) = true :=
  (immInRange_of_ne_lui (by decide)).mpr (by omega)

/-- The upper ten bits of a 16-bit number fit the window of `lui` (spec/40_assembler_resolver.md R100, R103). -/
theorem immInRange_upperTen {n : Int} (hn : 0 ≤ n ∧ n ≤ 0xFFFF) : immInRange .lui (n / 64) = true :=
  immInRange_lui.mpr (by omega)

theorem parseReal_addLowSixLine {rd : Text} {a : Reg} (h : lookupRegister rd = some a) (n : Int) :
    parseReal (addLowSixLine rd n) = .ok ⟨.addi, [.reg a, .reg a, .imm (n % 64)]⟩ := by
  simp only [parseReal, addLowSixLine, mnemonicOf_addi, signature, bindSlots, bindSlot, bindRegister_text h, bindImmediate,
    lowSix, rangeChecked_of_immInRange (immInRange_lowSix n)]
  rfl

theorem parseReal_loadUpperLine {rd : Text} {a : Reg} (h : lookupRegister rd = some a) {n : Int} (hn : 0 ≤ n ∧ n ≤ 0xFFFF) :
    parseReal (loadUpperLine rd n) = .ok ⟨.lui, [.reg a, .imm (n / 64)]⟩ := by
  simp only [parseReal, loadUpperLine, mnemonicOf_lui, signature, bindSlots, bindSlot, bindRegister_text h, bindImmediate,
    upperTen, rangeChecked_of_immInRange (immInRange_upperTen hn)]
  rfl

theorem parseReals_cons_of_ok {l : RealLine} {ls : List RealLine} {st : Staged} {sts : List Staged}
    (hl : parseReal l = .ok st) (hls : parseReals ls = .ok sts) : parseReals (l :: ls) = .ok (st :: sts) :=
  except_bind_eq_ok_iff.mpr ⟨st, hl, except_bind_eq_ok_iff.mpr ⟨sts, hls, rfl⟩⟩

/-! ### What the instructions do -/

theorem OnlyRegChanges.trans {a : Reg} {s t u : State} (hst : OnlyRegChanges a s t) (htu : OnlyRegChanges a t u) :
    OnlyRegChanges a s u := by
  obtain ⟨hregs, hpc, hmem, ⟨hhalted, hfault⟩, himem, hparams⟩ := hst
  obtain ⟨hregs', hpc', hmem', ⟨hhalted', hfault'⟩, himem', hparams'⟩ := htu
  exact ⟨fun r hr => (hregs' r hr).trans (hregs r hr), hpc'.trans hpc, fun adr => (hmem' adr).trans (hmem adr),
    ⟨hhalted'.trans hhalted, hfault'.trans hfault⟩, himem'.trans himem, hparams'.trans hparams⟩

/-- Adding to a wrapped number and wrapping is wrapping the sum. -/
theorem wrap16_wrap16_add (m n : Int) : wrap16 (wrap16 m + n) = wrap16 (m + n) := by
  apply wrap16_congr
  have := wrap16_emod m
  omega

/-- The pair that `movi` expands to loads the number: its upper ten bits times 64, plus its low six
(spec/40_assembler_resolver.md R100). -/
theorem exec_lui_addi (s : State) (a : Reg) (n : Int) :
    ∃ t u, exec (.lui a (n / 64)) s = .next t ∧ exec (.addi a a (n % 64)) t = .next u ∧ (a ≠ .r0 → u.x a = wrap16 n) ∧
      OnlyRegChanges a s u := by
  obtain ⟨-, hlui, -⟩ := luiWritesTheShiftedImmediate
  obtain ⟨-, -, -, haddi⟩ := addWritesTheWrappedSum
  obtain ⟨t, hst, htx, hframe⟩ := hlui a (n / 64) s
  obtain ⟨u, htu, hux, hframe'⟩ := haddi a a (n % 64) t
  refine ⟨t, u, hst, htu, fun ha => ?_, hframe.trans hframe'⟩
  calc u.x a
    _ = wrap16 (wrap16 (n / 64 * 64) + n % 64) := by rw [hux ha, htx ha]
    _ = wrap16 (n / 64 * 64 + n % 64) := wrap16_wrap16_add _ _
    _ = wrap16 n := by rw [Int.ediv_mul_add_emod]

/-- Settles O54: the expansions are a literal's check and lines that the real-instruction parse accepts, and `lui` and `addi` do what
their own rules say. -/
theorem moviAndLliExpandAndAct : Obligations.MoviAndLliExpandAndAct := by
  refine ⟨fun rd tok a imm hrd htok => ⟨fun hrange => ?movi, fun hrange => ?lli⟩,
    fun rd tok imm htok => ⟨?moviRange, ?lliRange⟩, fun rd tok htok => ⟨?moviLiteral, ?lliLiteral⟩, fun s a imm hlo hhi => ?moviEffect, fun s a imm => ?lliEffect⟩
  case movi =>
    refine ⟨_, by rw [expand_movi, pseudoImmediate_of_mem htok hrange]; rfl, ?_⟩
    exact parseReals_cons_of_ok (parseReal_loadUpperLine hrd hrange) (parseReals_cons_of_ok (parseReal_addLowSixLine hrd imm) rfl)
  case lli =>
    refine ⟨_, by rw [expand_lli, pseudoImmediate_of_mem htok hrange]; rfl, ?_⟩
    exact parseReals_cons_of_ok (parseReal_addLowSixLine hrd imm) rfl
  case moviRange =>
    intro hrange
    rw [expand_movi, pseudoImmediate_of_not_mem htok hrange]
    rfl
  case lliRange =>
    intro hrange
    rw [expand_lli, pseudoImmediate_of_not_mem htok hrange]
    rfl
  case moviLiteral =>
    rw [expand_movi, pseudoImmediate_of_no_literal htok]
    rfl
  case lliLiteral =>
    rw [expand_lli, pseudoImmediate_of_no_literal htok]
    rfl
  case moviEffect => exact ⟨immInRange_upperTen ⟨hlo, hhi⟩, immInRange_lowSix imm, exec_lui_addi s a imm⟩
  case lliEffect =>
    obtain ⟨-, -, -, haddi⟩ := addWritesTheWrappedSum
    exact ⟨immInRange_lowSix imm, haddi a a (imm % 64) s⟩

end Sys2Proof
end

section
/-! PROOFS. The data part of Load (spec/40_assembler_resolver.md R112): what an accepted data line does, and what all of them keep. -/

namespace Sys2Proof

open Machine

/-- An accepted data line that is not blank: an address, a value, and the image with that word written
(spec/40_assembler_resolver.md R112). -/
structure DataLineWrites (p : Params) (image image' : Memory) (line addrText valueText : Text) (addr value : Int) : Prop where
  words : splitWords line = [addrText, valueText]
  address : parseLiteral addrText = some addr
  number : parseLiteral valueText = some value
  valid : isWordAddress p addr = true
  range : -32768 ≤ value ∧ value ≤ 32767
  written : image' = image.writeWord p.byteOrder addr.toNat (toPattern value)

/-- What an accepted data line does: it is blank and writes nothing, or it writes one word. -/
theorem dataLine_cases {p : Params} {image image' : Memory} {line : Text} (h : dataLine p image line = .ok image') :
    (splitWords line = [] ∧ image' = image) ∨
      ∃ addrText valueText addr value, DataLineWrites p image image' line addrText valueText addr value := by
  unfold dataLine at h
  split at h
  · next hwords => exact .inl ⟨hwords, (Except.ok.inj h).symm⟩
  · next addrText valueText hwords =>
    split at h
    · next addr value haddr hvalue =>
      split at h
      · next hvalid =>
        split at h
        · next hrange =>
          exact .inr ⟨addrText, valueText, addr, value, hwords, haddr, hvalue, hvalid, hrange, (Except.ok.inj h).symm⟩
        · cases h
      · cases h
    · cases h
  · cases h

/-- Settles O56: the one word write keeps the canonical form, gives the word its value, and leaves every other byte. -/
theorem dataLineWritesOneWord : Obligations.DataLineWritesOneWord := by
  intro p image image' line hwf h
  obtain hblank | ⟨addrText, valueText, addr, value, hwrites⟩ := dataLine_cases h
  · exact ⟨hblank.2 ▸ hwf, .inl hblank⟩
  obtain ⟨hwords, haddr, hvalue, hvalid, ⟨hlo, hhi⟩, rfl⟩ := hwrites
  obtain ⟨hnonneg, -, -⟩ := (isWordAddress_iff _ _).mp hvalid
  refine ⟨Memory.wf_writeWord _ _ _ hwf, .inr ⟨addrText, valueText, addr, value, hwords, haddr, hvalue, hvalid, hlo, hhi, ?_,
    fun adr hne hne' => Memory.readByte_writeWord_of_ne _ _ _ (by omega) (by omega)⟩⟩
  rw [Memory.readWord_writeWord_self _ _ _ hwf, toInt_toPattern, wrap16_of_bounds hlo hhi]

/-- What the word write of every line keeps, the data segment keeps. -/
theorem dataLines_keeps (P : Memory → Prop) {p : Params} {lines : List Text} {image image' : Memory}
    (hwrite : ∀ line ∈ lines, ∀ {m m' addrText valueText addr value},
      DataLineWrites p m m' line addrText valueText addr value → P m → P m')
    (himage : P image) (h : dataLines p lines image = .ok image') : P image' := by
  induction lines generalizing image with
  | nil => cases h; exact himage
  | cons l ls ih =>
    obtain ⟨hl, hls⟩ := List.forall_mem_cons.mp hwrite
    obtain ⟨next, hnext, h⟩ := except_bind_eq_ok_iff.mp h
    refine ih hls ?_ h
    obtain ⟨-, rfl⟩ | ⟨_, _, _, _, hwrites⟩ := dataLine_cases hnext
    · exact himage
    · exact hl hwrites himage

/-- A data image has the canonical form (spec/40_assembler_resolver.md R112). -/
theorem wf_of_dataImage {p : Params} {text : Text} {image : Memory} (h : dataImage p text = .ok image) : image.wf := by
  refine dataLines_keeps Memory.wf (fun line _ _ _ _ _ _ _ hw hm => ?_) wf_reset h
  rw [hw.written]
  exact Memory.wf_writeWord _ _ _ hm

/-- A data image lists no address beyond `DMEM_BYTES` (spec/10_state.md R30). -/
theorem lt_dmemBytes_of_dataImage {p : Params} (hp : p.wf) {text : Text} {image : Memory} (h : dataImage p text = .ok image) :
    ∀ c ∈ image, c.1 < p.dmemBytes := by
  refine dataLines_keeps (fun m => ∀ c ∈ m, c.1 < p.dmemBytes) (fun line _ _ _ _ _ _ _ hw hm => ?_) (List.forall_mem_nil _) h
  rw [hw.written]
  exact lt_dmemBytes_of_mem_writeWord hp hm hw.valid _ _

/-- A byte of a data image that belongs to no word a line names is 0 (decision D13). -/
theorem readByte_dataImage_eq_zero {p : Params} {text : Text} {image : Memory} {adr : Nat} (h : dataImage p text = .ok image)
    (hadr : ∀ line ∈ splitLines text, ∀ addrText valueText, splitWords line = [addrText, valueText] →
      ∀ addr : Int, parseLiteral addrText = some addr → (adr : Int) ≠ addr ∧ (adr : Int) ≠ addr + 1) :
    image.readByte adr = 0 := by
  refine dataLines_keeps (fun m => m.readByte adr = 0) (fun line hline _ _ _ _ _ _ hw hm => ?_) rfl h
  obtain ⟨hlo, hhi⟩ := hadr line hline _ _ hw.words _ hw.address
  obtain ⟨hnonneg, -, -⟩ := (isWordAddress_iff _ _).mp hw.valid
  rw [hw.written, Memory.readByte_writeWord_of_ne _ _ _ (by omega) (by omega)]
  exact hm

end Sys2Proof
end

section
/-! PROOFS. Load and the host's actions (spec/70_reset_and_hazards.md R202, R203, R208, 40_assembler_resolver.md R90, R108, R111). -/

namespace Sys2Proof

open Machine

/-- Load succeeds when both texts assemble, with Reset of the core that holds the encoded program and the image
(spec/70_reset_and_hazards.md R202). -/
theorem load_eq_ok_iff {dataText programText : Text} {s t : State} : load dataText programText s = .ok t ↔
    ∃ program, assembleProgram programText = .ok program ∧ ∃ image, dataImage s.params dataText = .ok image ∧
      hostReset { s with imem := program.map encode, dmem := image } = t := by
  simp only [load, except_bind_eq_ok_iff, Except.ok.injEq]

/-- The installed program has between 1 and `IMEM_MAX` words (spec/40_assembler_resolver.md R91, R109). -/
theorem length_map_encode_of_assembleProgram {text : Text} {program : List Instr} (h : assembleProgram text = .ok program) :
    1 ≤ (program.map encode).length ∧ (program.map encode).length ≤ imemMax := by
  rw [List.length_map]
  exact length_of_assembleProgram h

/-- Settles O57: the assembler makes well-formed instructions, and the word of one decodes to it. -/
theorem loadInstallsOnlyLegalWords : Obligations.LoadInstallsOnlyLegalWords := by
  intro dataText programText s t h
  obtain ⟨program, hprogram, image, -, rfl⟩ := load_eq_ok_iff.mp h
  refine List.forall_mem_map.mpr fun i hi => ?_
  have hwf := wellFormed_of_assembleProgram hprogram i hi
  exact ⟨i, decodeOfEncodeIsTheInstruction i hwf, hwf⟩

/-- Settles O59: Load is Reset after the two installations, the assembler keeps to the size limits, and the data lines keep the
canonical form and every byte they do not name. -/
theorem loadEndsInALaunchState : Obligations.LoadEndsInALaunchState := by
  refine ⟨fun dataText programText s t h => ?_, fun dataText programText s program image hprogram himage => ?_,
    fun p dataText image adr h hadr => readByte_dataImage_eq_zero h hadr⟩
  · obtain ⟨program, hprogram, image, himage, rfl⟩ := load_eq_ok_iff.mp h
    refine ⟨?_, rfl, program, image, hprogram, himage, rfl, rfl⟩
    exact {
      installed := length_map_encode_of_assembleProgram hprogram
      registers := hostReset_x _
      atStart := rfl
      running := ⟨rfl, rfl⟩
      memory := wf_of_dataImage himage }
  · exact ⟨_, load_eq_ok_iff.mpr ⟨program, hprogram, image, himage, rfl⟩⟩

/-- A program text with no line left is an empty program, whatever the data text (spec/40_assembler_resolver.md R91). -/
theorem load_of_normalize_eq_nil {programText : Text} (h : normalize programText = []) (dataText : Text) (s : State) :
    load dataText programText s = .error .emptyProgram := by
  simp only [load, assembleProgram, h, if_true]
  rfl

/-- The host's action after a Load that fails: nothing changes, and the reply is the error and its message
(spec/40_assembler_resolver.md R111). -/
theorem perform_load_of_error {dataText programText : Text} {s : State} {e : AsmError}
    (h : load dataText programText s = .error e) :
    perform (.load dataText programText) s = (s, .loadError e (e.message dataText programText)) := by
  simp only [perform, h]

theorem perform_load_of_ok {dataText programText : Text} {s t : State} (h : load dataText programText s = .ok t) :
    perform (.load dataText programText) s = (t, .done) := by
  simp only [perform, h]

/-- Settles O60: the action keeps the state on an error, and the message of an empty program is the spec's. -/
theorem failedLoadChangesNothing : Obligations.FailedLoadChangesNothing :=
  ⟨fun _ _ _ _ => perform_load_of_error, fun dataText _ s h => perform_load_of_error (load_of_normalize_eq_nil h dataText s)⟩

/-- The host's action Step leaves the next state where there is one, and else the state itself (spec/10_state.md R28). -/
theorem perform_step_fst (s : State) : (∃ t, step s = .next t ∧ (perform .step s).1 = t) ∨ (perform .step s).1 = s := by
  unfold perform
  simp only
  split
  · exact .inr rfl
  · exact .inr rfl
  · exact .inr rfl
  · next t hstep =>
    refine .inl ⟨t, hstep, ?_⟩
    split <;> rfl

/-- A core with clear latches meets the invariant when its memory, parameters and program do. -/
theorem inv_of_running {s : State} (hmemory : s.dmem.wf) (hrange : ∀ c ∈ s.dmem, c.1 < s.params.dmemBytes)
    (hparams : s.params.wf) (hprogram : s.imem.length ≤ imemMax) (hhalted : s.halted = false) (hfault : s.fault = none) :
    s.Inv where
  memory := hmemory
  memoryInRange := hrange
  params := hparams
  programSize := hprogram
  oneLatch := fun h => h.2 hfault
  haltInstalled := fun h => absurd (hhalted.symm.trans h) nofun
  faultRecord := fun _ h => absurd (hfault.symm.trans h) nofun

/-- Reset keeps the invariant: it clears the latches and leaves memory, parameters and program. -/
theorem inv_hostReset {s : State} (h : s.Inv) : (hostReset s).Inv :=
  inv_of_running h.memory h.memoryInRange h.params h.programSize rfl rfl

/-- A Load that succeeds gives a core that meets the invariant, from legal parameters. -/
theorem inv_of_load {dataText programText : Text} {s t : State} (hparams : s.params.wf)
    (h : load dataText programText s = .ok t) : t.Inv := by
  obtain ⟨program, hprogram, image, himage, rfl⟩ := load_eq_ok_iff.mp h
  obtain ⟨-, hfits⟩ := length_map_encode_of_assembleProgram hprogram
  exact inv_of_running (wf_of_dataImage himage) (lt_dmemBytes_of_dataImage hparams himage) hparams hfits rfl rfl

/-- Settles O49: a Load that fails changes nothing, one that succeeds launches a core that meets the invariant, Reset clears the
latches, and a step keeps the invariant. -/
theorem everyHostActionKeepsTheInvariant : Obligations.EveryHostActionKeepsTheInvariant := by
  intro act s h
  cases act with
  | load dataText programText =>
    cases hload : load dataText programText s with
    | error e => rwa [perform_load_of_error hload]
    | ok t =>
      rw [perform_load_of_ok hload]
      exact inv_of_load h.params hload
  | reset => exact inv_hostReset h
  | step =>
    obtain ⟨t, hstep, rfl⟩ | hsame := perform_step_fst s
    · exact everyStepKeepsTheInvariant s _ h hstep
    · rwa [hsame]

end Sys2Proof
end
